-- ==== Sys2Proof/Word.lean ====
section
/-! DEFINITION. The two bit patterns of the machine: a byte of memory (20_memory R35) and a 16-bit value, the spec's u16
(00_scope R14). -/

namespace Sys2Proof

/-- A byte of memory: the spec's u8 (00_scope R14). -/
abbrev Byte := BitVec 8

/-- A register value, operand, payload or 16-bit memory word: the spec's u16 (00_scope R14). -/
abbrev Word := BitVec 16

end Sys2Proof
end

