-- ==== Sys2Proof/Syntax/Parts.lean ====
section
/-! DEFINITION. The parts an instruction is made of: the operations the opcode field selects, the register names, and the
operand forms of the addressing modes. -/

namespace Sys2Proof

/-- The fifteen operations of 30_encoding R63, in the order of its table. -/
inductive Op where
  | nop | halt | jump | jumpIfZero | load | store | add | sub | mul | div | and | or | not | equalsZero | lessThanZero
  deriving DecidableEq, Repr

/-- The three general registers (10_state R20). There is no name for the reserved register code 11. -/
inductive Reg where
  | r0 | r1 | r2
  deriving DecidableEq, Repr

/-- An operand as an instruction carries it (30_encoding R61, R62): no payload in accumulator mode, the 16-bit value in
immediate mode, the 16-bit byte address in direct mode. -/
inductive Arg where
  | acc
  | imm (value : Word)
  | dir (ea : Word)
  deriving DecidableEq, Repr

end Sys2Proof
end

