-- ==== Sys2Proof/Syntax.lean ====
section
/-! DEFINITION. The instructions: one constructor per mnemonic of spec/opcode_table.json. The rows of one mnemonic differ
in the addressing mode only, which is the operand argument (log 11). The register and operand fields are kept also where
the operation ignores them, since they decide length and operand reads (30_encoding R65). -/

namespace Sys2Proof

/-- An instruction of the opcode table (30_encoding R63, R64). -/
inductive Instr where
  /-- 41_control R105 -/
  | nop (reg : Reg) (arg : Arg)
  /-- 41_control R106 -/
  | halt (reg : Reg) (arg : Arg)
  /-- 41_control R107 -/
  | jump (reg : Reg) (arg : Arg)
  /-- 41_control R108 -/
  | jumpIfZero (reg : Reg) (arg : Arg)
  /-- 42_data_transfer R109 -/
  | load (reg : Reg) (arg : Arg)
  /-- 42_data_transfer R110 -/
  | store (reg : Reg) (arg : Arg)
  /-- 43_arithmetic R112 -/
  | add (reg : Reg) (arg : Arg)
  /-- 43_arithmetic R113 -/
  | sub (reg : Reg) (arg : Arg)
  /-- 43_arithmetic R114 -/
  | mul (reg : Reg) (arg : Arg)
  /-- 43_arithmetic R115 -/
  | div (reg : Reg) (arg : Arg)
  /-- 44_logic_compare R120 -/
  | and (reg : Reg) (arg : Arg)
  /-- 44_logic_compare R121 -/
  | or (reg : Reg) (arg : Arg)
  /-- 44_logic_compare R122 -/
  | not (reg : Reg) (arg : Arg)
  /-- 44_logic_compare R123 -/
  | equalsZero (reg : Reg) (arg : Arg)
  /-- 44_logic_compare R124 -/
  | lessThanZero (reg : Reg) (arg : Arg)
  /-- A first byte with opcode 1111: its bits 3:2 and 1:0 (30_encoding R64). -/
  | reservedOpcode (regBits modeBits : BitVec 2)
  /-- A first byte with another opcode and register field 11: its bits 7:4 and 1:0 (30_encoding R64). -/
  | reservedRegister (opcBits : BitVec 4) (modeBits : BitVec 2)
  /-- A first byte with another opcode, a register and mode field 11: its bits 7:4 and the register (30_encoding R64). -/
  | reservedMode (opcBits : BitVec 4) (reg : Reg)
  deriving DecidableEq, Repr

/-- The instruction of an operation with its register and operand: every operation takes every register and every mode
(30_encoding R65). -/
def Instr.ofOp : Op → Reg → Arg → Instr
  | .nop => .nop
  | .halt => .halt
  | .jump => .jump
  | .jumpIfZero => .jumpIfZero
  | .load => .load
  | .store => .store
  | .add => .add
  | .sub => .sub
  | .mul => .mul
  | .div => .div
  | .and => .and
  | .or => .or
  | .not => .not
  | .equalsZero => .equalsZero
  | .lessThanZero => .lessThanZero

end Sys2Proof
end

