-- ==== Sys2Proof/WellFormed.lean ====
section
/-! DEFINITION. Which instruction terms stand for machine code. The types already exclude a fourth register, a fourth mode
and a payload of another width; what is left is that the reserved forms of register 11 and mode 11 do not name opcode
1111, which is counted as the reserved opcode (30_encoding R64: 16, then 60, then 45 bytes). -/

namespace Sys2Proof

/-- The term stands for exactly one machine code (30_encoding R64). -/
def Instr.wellFormed : Instr → Bool
  | .reservedRegister opcBits _ => opcBits != 0b1111#4
  | .reservedMode opcBits _ => opcBits != 0b1111#4
  | .reservedOpcode _ _ => true
  | .nop _ _ | .halt _ _ | .jump _ _ | .jumpIfZero _ _ | .load _ _ | .store _ _ => true
  | .add _ _ | .sub _ _ | .mul _ _ | .div _ _ => true
  | .and _ _ | .or _ _ | .not _ _ | .equalsZero _ _ | .lessThanZero _ _ => true

/-- The forms the assembler can emit as instructions (30_encoding R89): register 00 where the operation names none,
mode 00 where it takes no argument, no immediate store, no reserved pattern. -/
def Instr.canonical : Instr → Bool
  | .nop r a | .halt r a => r == .r0 && a == .acc
  | .jump r _ => r == .r0
  | .not _ a => a == .acc
  | .store _ (.imm _) => false
  | .store _ .acc | .store _ (.dir _) => true
  | .jumpIfZero _ _ | .load _ _ | .add _ _ | .sub _ _ | .mul _ _ | .div _ _ => true
  | .and _ _ | .or _ _ | .equalsZero _ _ | .lessThanZero _ _ => true
  | .reservedOpcode _ _ | .reservedRegister _ _ | .reservedMode _ _ => false

end Sys2Proof
end

