-- ==== Sys2Proof/Decode.lean ====
section
/-! DEFINITION. The machine code: the opcode map, the field codes, the decoder, the encoder, and the table word that the
host's questions use. The numbers of the opcode map are the spec's default, which the source does not give (log 7). -/

namespace Sys2Proof

/-! ### Bytes and words (20_memory R42: big-endian) -/

/-- The 16-bit value of two bytes, the first one high (20_memory R40, R42). -/
def wordOf (hi lo : Byte) : Word := hi ++ lo

/-- v[15:8] (20_memory R41). -/
def hiByte (v : Word) : Byte := v.extractLsb' 8 8

/-- v[7:0] (20_memory R41). -/
def loByte (v : Word) : Byte := v.extractLsb' 0 8

/-! ### The fields of the first byte (30_encoding R58) -/

/-- b[7:4] -/
def opcField (b : Byte) : BitVec 4 := b.extractLsb' 4 4

/-- b[3:2] -/
def regField (b : Byte) : BitVec 2 := b.extractLsb' 2 2

/-- b[1:0] -/
def modeField (b : Byte) : BitVec 2 := b.extractLsb' 0 2

/-- The first byte opc*16 + reg*4 + mode (30_encoding R58, R82). -/
def firstByteOf (opc : BitVec 4) (reg mode : BitVec 2) : Byte := opc ++ reg ++ mode

/-- OPCODE_MAP, the default of 30_encoding R63. -/
def Op.code : Op → BitVec 4
  | .nop => 0b0000#4
  | .halt => 0b0001#4
  | .jump => 0b0010#4
  | .jumpIfZero => 0b0011#4
  | .load => 0b0100#4
  | .store => 0b0101#4
  | .add => 0b0110#4
  | .sub => 0b0111#4
  | .mul => 0b1000#4
  | .div => 0b1001#4
  | .and => 0b1010#4
  | .or => 0b1011#4
  | .not => 0b1100#4
  | .equalsZero => 0b1101#4
  | .lessThanZero => 0b1110#4

/-- The dispatch of 40_step_cycle R98 on the opcode bits: every value but 1111 selects an operation (30_encoding R64). -/
def Op.ofCode (c : BitVec 4) : Option Op :=
  match c.toNat with
  | 0 => some .nop
  | 1 => some .halt
  | 2 => some .jump
  | 3 => some .jumpIfZero
  | 4 => some .load
  | 5 => some .store
  | 6 => some .add
  | 7 => some .sub
  | 8 => some .mul
  | 9 => some .div
  | 10 => some .and
  | 11 => some .or
  | 12 => some .not
  | 13 => some .equalsZero
  | 14 => some .lessThanZero
  | _ => none

/-- Register field codes (30_encoding R60). -/
def Reg.code : Reg → BitVec 2
  | .r0 => 0b00#2
  | .r1 => 0b01#2
  | .r2 => 0b10#2

/-- The register of a field value, none for the reserved 11 (30_encoding R60, R64). -/
def Reg.ofCode (c : BitVec 2) : Option Reg :=
  match c.toNat with
  | 0 => some .r0
  | 1 => some .r1
  | 2 => some .r2
  | _ => none

/-- Mode field codes (30_encoding R61). -/
def Arg.modeCode : Arg → BitVec 2
  | .acc => 0b00#2
  | .imm _ => 0b01#2
  | .dir _ => 0b10#2

/-- The bytes after the first: the payload, high byte first, when the mode carries one (30_encoding R59, R83). -/
def Arg.payloadBytes : Arg → List Byte
  | .acc => []
  | .imm v => [hiByte v, loByte v]
  | .dir ea => [hiByte ea, loByte ea]

/-! ### Length (30_encoding R57) -/

/-- 1 in accumulator mode, 3 in the other two (30_encoding R57, 40_step_cycle R94). -/
def Arg.size : Arg → Nat
  | .acc => 1
  | .imm _ => 3
  | .dir _ => 3

/-- The static size in bytes; an illegal first byte is one byte (30_encoding R57; spec/opcode_table.json "length"). -/
def Instr.size : Instr → Nat
  | .nop _ a | .halt _ a | .jump _ a | .jumpIfZero _ a | .load _ a | .store _ a => a.size
  | .add _ a | .sub _ a | .mul _ a | .div _ a => a.size
  | .and _ a | .or _ a | .not _ a | .equalsZero _ a | .lessThanZero _ a => a.size
  | .reservedOpcode _ _ | .reservedRegister _ _ | .reservedMode _ _ => 1

/-- The 121 illegal first bytes, in the words of 30_encoding R64: b >= 0xF0, or b[3:2] = 11, or b[1:0] = 11. -/
def illegalFirstByte (b : Byte) : Bool :=
  decide (0xF0 ≤ b.toNat) || regField b == 0b11#2 || modeField b == 0b11#2

/-! ### The decoder -/

/-- Why a list of bytes holds no whole instruction. The fetch turns each into the BoundsError of 40_step_cycle R92 or
R94. -/
inductive DecodeReject where
  /-- There is no first byte. -/
  | noFirstByte
  /-- The first byte is legal and in mode 01 or 10, and fewer than two bytes follow it. -/
  | noPayload
  deriving DecidableEq, Repr

/-- The instruction at the head of a list of bytes, and the bytes after it. The checks stand in the order of
40_step_cycle R93 and R94: all three field checks read the first byte alone, before any further byte. -/
def decode (bytes : List Byte) : Except DecodeReject (Instr × List Byte) :=
  match bytes with
  | [] => .error .noFirstByte
  | b :: rest =>
    match Op.ofCode (opcField b) with
    | none => .ok (.reservedOpcode (regField b) (modeField b), rest)
    | some op =>
      match Reg.ofCode (regField b) with
      | none => .ok (.reservedRegister (opcField b) (modeField b), rest)
      | some r =>
        match (modeField b).toNat, rest with
        | 0, rest => .ok (Instr.ofOp op r .acc, rest)
        | 1, hi :: lo :: rest' => .ok (Instr.ofOp op r (.imm (wordOf hi lo)), rest')
        | 1, _ => .error .noPayload
        | 2, hi :: lo :: rest' => .ok (Instr.ofOp op r (.dir (wordOf hi lo)), rest')
        | 2, _ => .error .noPayload
        | _, rest => .ok (.reservedMode (opcField b) r, rest)

/-! ### The encoder (30_encoding R82, R83) -/

/-- The bytes of an operation with its register and operand. -/
def encodeOp (op : Op) (r : Reg) (a : Arg) : List Byte :=
  firstByteOf op.code r.code a.modeCode :: a.payloadBytes

/-- The bytes of an instruction; a reserved form is the one illegal byte it was read from. -/
def encode : Instr → List Byte
  | .nop r a => encodeOp .nop r a
  | .halt r a => encodeOp .halt r a
  | .jump r a => encodeOp .jump r a
  | .jumpIfZero r a => encodeOp .jumpIfZero r a
  | .load r a => encodeOp .load r a
  | .store r a => encodeOp .store r a
  | .add r a => encodeOp .add r a
  | .sub r a => encodeOp .sub r a
  | .mul r a => encodeOp .mul r a
  | .div r a => encodeOp .div r a
  | .and r a => encodeOp .and r a
  | .or r a => encodeOp .or r a
  | .not r a => encodeOp .not r a
  | .equalsZero r a => encodeOp .equalsZero r a
  | .lessThanZero r a => encodeOp .lessThanZero r a
  | .reservedOpcode reg mode => [firstByteOf 0b1111#4 reg mode]
  | .reservedRegister opc mode => [firstByteOf opc 0b11#2 mode]
  | .reservedMode opc r => [firstByteOf opc r.code 0b11#2]

/-! ### The host's table word -/

/-- The three bytes of the longest instruction, from a number whose bit 0 is the least significant bit of the first byte;
bits at and above nbits are zero. -/
def tableWordBytes (nbits w : Nat) : List Byte :=
  let v := w % 2 ^ nbits
  [BitVec.ofNat 8 v, BitVec.ofNat 8 (v / 256), BitVec.ofNat 8 (v / 65536)]

/-- The instruction the decoder reads from a table word. -/
def decodeTableWord (nbits w : Nat) : Option Instr :=
  match decode (tableWordBytes nbits w) with
  | .ok (i, _) => some i
  | .error _ => none

end Sys2Proof
end

