-- ==== Sys2Proof/Config.lean ====
section
/-! DEFINITION. What the host fixes outside the machine: the memory size of the one reset state, and the free values the
spec leaves open in the dump format. The other parameters (MEM_BYTES, MEM_INIT, R_INIT) are arguments of State.launch. -/

namespace Sys2Proof

/-- MEM_BYTES of `State.reset` (DESIGN CHOICE, log 3, unsafe). The spec leaves the size to the host (00_scope R6);
65537 is the smallest memory that holds every byte a direct access can reach (20_memory R46). Every statement about
another size is about a state with another `Memory.size`. -/
def Config.resetMemBytes : Nat := 65537

/-- The writing half of COMPACT_CODEC: a free function of the host (20_memory R54, 92 D25, log 13). -/
opaque Config.compactEncode : List Byte → List Char

/-- The reading half of COMPACT_CODEC: a free function of the host (20_memory R54, 92 D25, log 13). -/
opaque Config.compactDecode : List Char → Option (List Byte)

/-- Whether a hexadecimal dump is written in upper case: any value (93 row 23, log 14). -/
opaque Config.hexUpperCase : Bool

end Sys2Proof
end

