-- ==== Sys2Proof/Machine/State.lean ====
section
/-! DEFINITION. The architectural state (10_state R19): pc, R0 to R2, memory, run status; the fault record the status
keeps; the reset state; and the two types of reasons of the host's interface. -/

namespace Sys2Proof.Machine

/-- Memory (20_memory R35, R36): its fixed length MEM_BYTES, and the bytes that differ from `Memory.unlisted`, by rising
address. -/
structure Memory where
  /-- MEM_BYTES (00_scope R6). -/
  size : Nat
  /-- The listed bytes. -/
  cells : List Host.Cell
  deriving DecidableEq, Repr

/-- What a byte inside memory reads as when the list does not hold it (DESIGN CHOICE, log 4, unsafe). -/
def Memory.unlisted : Byte := 0#8

/-- The canonical form of a list of cells: addresses strictly rising, from lo on and below hi, no cell listed that holds
the unlisted value. -/
def Memory.cellsWf (lo hi : Nat) : List Host.Cell → Bool
  | [] => true
  | (a, b) :: cs => decide (lo ≤ a) && decide (a < hi) && b != Memory.unlisted && Memory.cellsWf (a + 1) hi cs

/-- The memory is in its one canonical form, and lists no address at or past its end. -/
def Memory.wf (m : Memory) : Bool := Memory.cellsWf 0 m.size m.cells

/-- The four fault kinds of the VM (60_exceptions R125). -/
inductive FaultKind where
  | decodeError | boundsError | encodingError | divideByZero
  deriving DecidableEq, Repr

/-- The info field of a fault record (60_exceptions R126): (b), (a, n) or (). -/
inductive FaultInfo where
  | firstByte (b : Byte)
  | access (a n : Nat)
  | empty
  deriving DecidableEq, Repr

/-- The fault record (60_exceptions R126). -/
structure FaultRecord where
  kind : FaultKind
  pc : Nat
  info : FaultInfo
  deriving DecidableEq, Repr

/-- What a rule raises, with the arguments it raises it with (00_scope R15). -/
inductive Cause where
  | decode (b : Byte)
  | bounds (a n : Nat)
  | encoding
  | divideByZero
  deriving DecidableEq, Repr

/-- The run status (10_state R28). -/
inductive Status where
  | running
  | halted
  | faulted (f : FaultRecord)
  deriving DecidableEq, Repr

/-- The whole architectural state (10_state R19). -/
structure State where
  /-- The program counter, an unbounded byte address (00_scope R10, 10_state R24). -/
  pc : Nat
  /-- R0, the accumulator (10_state R20, R21). -/
  r0 : Word
  /-- R1 (10_state R20). -/
  r1 : Word
  /-- R2 (10_state R20). -/
  r2 : Word
  /-- M (10_state R31). -/
  mem : Memory
  /-- The run status (10_state R28). -/
  status : Status
  deriving DecidableEq, Repr

/-- The reasons a step of the host's interface may stop with a fault: there is none. Every error of this machine is a
next state whose status is Faulted (40_step_cycle R97, log 1), so nothing raises one; this is neither safe nor unsafe. -/
inductive Fault where
  deriving DecidableEq, Repr

/-- The reasons a step of the host's interface may refuse. -/
inductive Refusal where
  /-- An instruction with no meaning yet, raised by its arm of exec alone. No arm raises it now. Safe. -/
  | notModelled (mnemonic : String)
  deriving DecidableEq, Repr

/-- The machine right after construction (10_state R33, 70_reset R143): pc 0 and status Running as the spec says. The
parameters R_INIT, MEM_BYTES and MEM_INIT, which the spec leaves to the host, stand at zeros, `Config.resetMemBytes` and
zeros (DESIGN CHOICE, logs 2, 3, 4, unsafe). `State.launch` takes them as arguments. -/
def State.reset : State :=
  { pc := 0
    r0 := 0#16
    r1 := 0#16
    r2 := 0#16
    mem := { size := Config.resetMemBytes, cells := [] }
    status := .running }

end Sys2Proof.Machine
end

