-- ==== Sys2Proof/Machine/Ops.lean ====
section
/-! DEFINITION. The named operations over memory and registers, construction of a VM, and raising a fault. -/

namespace Sys2Proof.Machine

/-! ### One byte of memory -/

/-- The byte at an address of a list of cells. -/
def Memory.lookup : List Host.Cell → Nat → Byte
  | [], _ => Memory.unlisted
  | (k, b) :: cs, a => if k = a then b else Memory.lookup cs a

/-- Puts a byte at an address and keeps the canonical form: the unlisted value is never listed. -/
def Memory.insert (a : Nat) (b : Byte) : List Host.Cell → List Host.Cell
  | [] => if b = Memory.unlisted then [] else [(a, b)]
  | (k, c) :: cs =>
    if a < k then
      if b = Memory.unlisted then (k, c) :: cs else (a, b) :: (k, c) :: cs
    else if a = k then
      if b = Memory.unlisted then cs else (a, b) :: cs
    else (k, c) :: Memory.insert a b cs

/-- M[a] (20_memory R35), with no bounds check: the callers check. -/
def Memory.get (m : Memory) (a : Nat) : Byte := Memory.lookup m.cells a

/-- M[a] <- b, with no bounds check: the callers check. The length never changes (20_memory R36). -/
def Memory.set (m : Memory) (a : Nat) (b : Byte) : Memory := { m with cells := Memory.insert a b m.cells }

/-! ### The VM's memory primitives (20_memory R40, R41) -/

/-- The 16-bit word at a: {M[a], M[a+1]} (20_memory R40), with no bounds check. -/
def Memory.word (m : Memory) (a : Nat) : Word := wordOf (m.get a) (m.get (a + 1))

/-- MemRead(a, 1) (20_memory R40). -/
def memRead1 (m : Memory) (a : Nat) : Except Cause Byte :=
  if a + 1 > m.size then .error (.bounds a 1) else .ok (m.get a)

/-- MemRead(a, 2) (20_memory R40). -/
def memRead2 (m : Memory) (a : Nat) : Except Cause Word :=
  if a + 2 > m.size then .error (.bounds a 2) else .ok (m.word a)

/-- MemWrite(a, 2, v) (20_memory R41): v[15:8] at a, v[7:0] at a+1, both or neither. -/
def memWrite2 (m : Memory) (a : Nat) (v : Word) : Except Cause Memory :=
  if a + 2 > m.size then .error (.bounds a 2) else .ok ((m.set a (hiByte v)).set (a + 1) (loByte v))

/-! ### Construction (10_state R33, 70_reset R143) -/

/-- The cells of a list of bytes that starts at an address. -/
def Memory.cellsOf : Nat → List Byte → List Host.Cell
  | _, [] => []
  | a, b :: bs => if b = Memory.unlisted then Memory.cellsOf (a + 1) bs else (a, b) :: Memory.cellsOf (a + 1) bs

/-- The memory whose bytes are the list, byte 0 first (00_scope R7, 20_memory R56). -/
def Memory.ofBytes (bytes : List Byte) : Memory :=
  { size := bytes.length, cells := Memory.cellsOf 0 bytes }

/-- Construction of a VM from MEM_INIT and R_INIT (10_state R33, 70_reset R143); MEM_BYTES is the length of MEM_INIT
(00_scope R7). -/
def State.launch (memInit : List Byte) (r0 r1 r2 : Word) : State :=
  { pc := 0, r0 := r0, r1 := r1, r2 := r2, mem := Memory.ofBytes memInit, status := .running }

/-- A list of bytes put into memory from an address on (the host's placing of bytes before a run). -/
def Memory.place (m : Memory) : Nat → List Byte → Memory
  | _, [] => m
  | a, b :: bs => Memory.place (m.set a b) (a + 1) bs

/-! ### Registers (10_state R20 to R23) and the other parts of the state -/

/-- x[r] (00_scope R15). -/
def State.reg (s : State) : Reg → Word
  | .r0 => s.r0
  | .r1 => s.r1
  | .r2 => s.r2

/-- x[r] <- v (00_scope R15). -/
def State.setReg (s : State) (r : Reg) (v : Word) : State :=
  match r with
  | .r0 => { s with r0 := v }
  | .r1 => { s with r1 := v }
  | .r2 => { s with r2 := v }

/-- pc <- t (00_scope R15). -/
def State.setPc (s : State) (t : Nat) : State := { s with pc := t }

/-- M <- m. -/
def State.setMem (s : State) (m : Memory) : State := { s with mem := m }

/-- status <- st. -/
def State.setStatus (s : State) (st : Status) : State := { s with status := st }

/-! ### Raising a fault (40_step_cycle R97, 60_exceptions R125, R126, R134)

There is no return from a fault (60_exceptions R135), so no operation for one. -/

/-- The fault kind of what is raised (60_exceptions R125). -/
def Cause.kind : Cause → FaultKind
  | .decode _ => .decodeError
  | .bounds _ _ => .boundsError
  | .encoding => .encodingError
  | .divideByZero => .divideByZero

/-- The info field of what is raised (60_exceptions R126). -/
def Cause.info : Cause → FaultInfo
  | .decode b => .firstByte b
  | .bounds a n => .access a n
  | .encoding => .empty
  | .divideByZero => .empty

/-- The numeric codes of 60_exceptions R125. -/
def FaultKind.code : FaultKind → Nat
  | .decodeError => 1
  | .boundsError => 2
  | .encodingError => 3
  | .divideByZero => 4

/-- The record of a fault raised by the instruction at p (60_exceptions R126). -/
def Cause.record (c : Cause) (p : Nat) : FaultRecord := { kind := c.kind, pc := p, info := c.info }

/-- Raising a fault: status becomes Faulted with the record, and nothing else changes (40_step_cycle R97). -/
def State.raise (s : State) (c : Cause) : State := s.setStatus (.faulted (c.record s.pc))

end Sys2Proof.Machine
end

