-- ==== Sys2Proof/Machine/Operands.lean ====
section
/-! DEFINITION. Operand resolution, the pc advance and the two shapes every instruction is written in: resolve the
operand first (40_step_cycle R94), then commit (R96). -/

namespace Sys2Proof.Machine

/-- The operand value op of 40_step_cycle R94. The payload was read, and its bounds checked, by the fetch (log 9); the
direct read is made here, for every operation. -/
def resolve (a : Arg) (s : State) : Except Cause Word :=
  match a with
  | .acc => .ok s.r0
  | .imm v => .ok v
  | .dir ea => memRead2 s.mem ea.toNat

/-- pc <- npc, where npc = p + size (40_step_cycle R95). -/
def State.advance (s : State) (a : Arg) : State := s.setPc (s.pc + a.size)

/-- Resolves the operand before the operation runs: a failed direct read is raised whatever the operation
(40_step_cycle R94). -/
def withOperand (a : Arg) (s : State) (k : Word → Host.Outcome State Fault Refusal) :
    Host.Outcome State Fault Refusal :=
  match resolve a s with
  | .ok op => k op
  | .error c => .next (s.raise c)

/-- The shape of an instruction that writes the selected register: x[reg] <- f sel op; pc <- npc, where sel and op are
both from before the step (40_step_cycle R96). -/
def writeSelected (f : Word → Word → Word) (r : Reg) (a : Arg) (s : State) : Host.Outcome State Fault Refusal :=
  withOperand a s fun op => .next ((s.setReg r (f (s.reg r) op)).advance a)

end Sys2Proof.Machine
end

