-- ==== Sys2Proof/Machine/Arithmetic.lean ====
section
/-! DEFINITION. Arithmetic: add, sub, mul, div (43_arithmetic). The exact integer result is computed and narrowed to its
low 16 bits (R111). -/

namespace Sys2Proof.Machine

/-- r mod 65536 of an exact integer result, also for a negative one (43_arithmetic R111). -/
def narrow (r : Int) : Word := BitVec.ofInt 16 r

/-- add (43_arithmetic R112): x[reg] <- (sel + op) mod 65536. -/
def execAdd (r : Reg) (a : Arg) (s : State) : Host.Outcome State Fault Refusal :=
  writeSelected (fun sel op => narrow ((sel.toNat : Int) + op.toNat)) r a s

/-- sub (43_arithmetic R113): x[reg] <- (sel - op) mod 65536. -/
def execSub (r : Reg) (a : Arg) (s : State) : Host.Outcome State Fault Refusal :=
  writeSelected (fun sel op => narrow ((sel.toNat : Int) - op.toNat)) r a s

/-- mul (43_arithmetic R114): x[reg] <- (sel * op) mod 65536. -/
def execMul (r : Reg) (a : Arg) (s : State) : Host.Outcome State Fault Refusal :=
  writeSelected (fun sel op => narrow ((sel.toNat : Int) * op.toNat)) r a s

/-- div (43_arithmetic R115): DivideByZero if op = 0, else x[reg] <- floor(sel / op), unsigned. -/
def execDiv (r : Reg) (a : Arg) (s : State) : Host.Outcome State Fault Refusal :=
  withOperand a s fun op =>
    if op = 0#16 then .next (s.raise .divideByZero)
    else .next ((s.setReg r (BitVec.ofNat 16 ((s.reg r).toNat / op.toNat))).advance a)

end Sys2Proof.Machine
end

