-- ==== Sys2Proof/Machine/Flags.lean ====
section
/-! DEFINITION. The machine has no flags and no condition codes (10_state R27). This file holds the computations that
stand in their place: the tests the logic and comparison instructions make and the value they write
(44_logic_compare R119, R123, R124). -/

namespace Sys2Proof.Machine

/-- sense(v): v is exactly 1 (44_logic_compare R119). -/
def sense (v : Word) : Bool := v == 1#16

/-- bool(t): the u16 1 for true, 0 for false (44_logic_compare R119). -/
def boolWord (t : Bool) : Word := if t then 1#16 else 0#16

/-- op = 0 (44_logic_compare R123, and the branch test of 41_control R108). -/
def isZero (v : Word) : Bool := v == 0#16

/-- op[15] = 1 (44_logic_compare R124). -/
def signBit (v : Word) : Bool := v.getLsbD 15

/-- The signed reading v - 65536*v[15] (00_scope R14). No instruction computes with it; it says what `signBit` tests. -/
def signedReading (v : Word) : Int := v.toNat - 65536 * (if v.getLsbD 15 then 1 else 0)

end Sys2Proof.Machine
end

