-- ==== Sys2Proof/Machine/Control.lean ====
section
/-! DEFINITION. The control instructions: nop, halt, jump, jumpIfZero (41_control). -/

namespace Sys2Proof.Machine

/-- nop (41_control R105): pc <- npc. The register is ignored; the operand is resolved and ignored. -/
def execNop (_r : Reg) (a : Arg) (s : State) : Host.Outcome State Fault Refusal :=
  withOperand a s fun _ => .next (s.advance a)

/-- halt (41_control R106): status <- Halted; pc <- npc. -/
def execHalt (_r : Reg) (a : Arg) (s : State) : Host.Outcome State Fault Refusal :=
  withOperand a s fun _ => .next ((s.advance a).setStatus .halted)

/-- jump (41_control R107): pc <- op. In direct mode op is the word at the address (90_conflicts C3). -/
def execJump (_r : Reg) (a : Arg) (s : State) : Host.Outcome State Fault Refusal :=
  withOperand a s fun op => .next (s.setPc op.toNat)

/-- jumpIfZero (41_control R108): pc <- op if the selected register holds 0, else pc <- npc. -/
def execJumpIfZero (r : Reg) (a : Arg) (s : State) : Host.Outcome State Fault Refusal :=
  withOperand a s fun op => .next (if isZero (s.reg r) then s.setPc op.toNat else s.advance a)

end Sys2Proof.Machine
end

