-- ==== Sys2Proof/Machine/Logic.lean ====
section
/-! DEFINITION. Logic and comparison: and, or, not, equalsZero, lessThanZero (44_logic_compare). None of them is bitwise. -/

namespace Sys2Proof.Machine

/-- and (44_logic_compare R120): x[reg] <- bool(sense(sel) and sense(op)). -/
def execAnd (r : Reg) (a : Arg) (s : State) : Host.Outcome State Fault Refusal :=
  writeSelected (fun sel op => boolWord (sense sel && sense op)) r a s

/-- or (44_logic_compare R121): x[reg] <- bool(sense(sel) or sense(op)). -/
def execOr (r : Reg) (a : Arg) (s : State) : Host.Outcome State Fault Refusal :=
  writeSelected (fun sel op => boolWord (sense sel || sense op)) r a s

/-- not (44_logic_compare R122): x[reg] <- bool(not sense(sel)); the operand is resolved and ignored. -/
def execNot (r : Reg) (a : Arg) (s : State) : Host.Outcome State Fault Refusal :=
  writeSelected (fun sel _ => boolWord (!sense sel)) r a s

/-- equalsZero (44_logic_compare R123): x[reg] <- bool(op = 0); the old value of the register is not read. -/
def execEqualsZero (r : Reg) (a : Arg) (s : State) : Host.Outcome State Fault Refusal :=
  writeSelected (fun _ op => boolWord (isZero op)) r a s

/-- lessThanZero (44_logic_compare R124): x[reg] <- bool(op[15] = 1); the old value of the register is not read. -/
def execLessThanZero (r : Reg) (a : Arg) (s : State) : Host.Outcome State Fault Refusal :=
  writeSelected (fun _ op => boolWord (signBit op)) r a s

end Sys2Proof.Machine
end

