-- ==== Sys2Proof/Machine/Reserved.lean ====
section
/-! DEFINITION. The three reserved patterns of the opcode table. Each raises DecodeError(b), where b is the illegal first
byte (40_step_cycle R93, 60_exceptions R127). -/

namespace Sys2Proof.Machine

/-- Opcode 1111: DecodeError (30_encoding R64, 40_step_cycle R93). -/
def execReservedOpcode (regBits modeBits : BitVec 2) (s : State) : Host.Outcome State Fault Refusal :=
  .next (s.raise (.decode (firstByteOf 0b1111#4 regBits modeBits)))

/-- Register field 11: DecodeError (30_encoding R64, 40_step_cycle R93). -/
def execReservedRegister (opcBits : BitVec 4) (modeBits : BitVec 2) (s : State) : Host.Outcome State Fault Refusal :=
  .next (s.raise (.decode (firstByteOf opcBits 0b11#2 modeBits)))

/-- Mode field 11: DecodeError (30_encoding R64, 40_step_cycle R93). -/
def execReservedMode (opcBits : BitVec 4) (r : Reg) (s : State) : Host.Outcome State Fault Refusal :=
  .next (s.raise (.decode (firstByteOf opcBits r.code 0b11#2)))

end Sys2Proof.Machine
end

