-- ==== Sys2Proof/Machine/Transfer.lean ====
section
/-! DEFINITION. Data transfer: load and store (42_data_transfer). -/

namespace Sys2Proof.Machine

/-- load (42_data_transfer R109): x[reg] <- op; the old value of the register is not read. -/
def execLoad (r : Reg) (a : Arg) (s : State) : Host.Outcome State Fault Refusal :=
  writeSelected (fun _ op => op) r a s

/-- store (42_data_transfer R110), after operand resolution, whose value it discards: R0 <- sel in accumulator mode,
EncodingError in immediate mode, MemWrite(ea, 2, sel) in direct mode. -/
def execStore (r : Reg) (a : Arg) (s : State) : Host.Outcome State Fault Refusal :=
  withOperand a s fun _ =>
    match a with
    | .acc => .next ((s.setReg .r0 (s.reg r)).advance a)
    | .imm _ => .next (s.raise .encoding)
    | .dir ea =>
      match memWrite2 s.mem ea.toNat (s.reg r) with
      | .ok m => .next ((s.setMem m).advance a)
      | .error c => .next (s.raise c)

end Sys2Proof.Machine
end

