-- ==== Sys2Proof/Machine/Dispatch.lean ====
section
/-! DEFINITION. The dispatch of 40_step_cycle R98: one arm per instruction, one direct call of its meaning. -/

namespace Sys2Proof.Machine

def exec (i : Instr) (s : State) : Host.Outcome State Fault Refusal :=
  match i with
  | .nop r a => Sys2Proof.Machine.execNop r a s
  | .halt r a => Sys2Proof.Machine.execHalt r a s
  | .jump r a => Sys2Proof.Machine.execJump r a s
  | .jumpIfZero r a => Sys2Proof.Machine.execJumpIfZero r a s
  | .load r a => Sys2Proof.Machine.execLoad r a s
  | .store r a => Sys2Proof.Machine.execStore r a s
  | .add r a => Sys2Proof.Machine.execAdd r a s
  | .sub r a => Sys2Proof.Machine.execSub r a s
  | .mul r a => Sys2Proof.Machine.execMul r a s
  | .div r a => Sys2Proof.Machine.execDiv r a s
  | .and r a => Sys2Proof.Machine.execAnd r a s
  | .or r a => Sys2Proof.Machine.execOr r a s
  | .not r a => Sys2Proof.Machine.execNot r a s
  | .equalsZero r a => Sys2Proof.Machine.execEqualsZero r a s
  | .lessThanZero r a => Sys2Proof.Machine.execLessThanZero r a s
  | .reservedOpcode x m => Sys2Proof.Machine.execReservedOpcode x m s
  | .reservedRegister o m => Sys2Proof.Machine.execReservedRegister o m s
  | .reservedMode o r => Sys2Proof.Machine.execReservedMode o r s

end Sys2Proof.Machine
end

