-- ==== Sys2Proof/Machine/Fetch.lean ====
section
/-! DEFINITION. Fetch and decode at the program counter, and the placing of an instruction's bytes there. -/

namespace Sys2Proof.Machine

/-- The bytes that stand in memory from an address on, at most n of them, ending where memory ends. -/
def Memory.window (m : Memory) : Nat → Nat → List Byte
  | 0, _ => []
  | n + 1, a => if a < m.size then m.get a :: Memory.window m n (a + 1) else []

/-- Fetch and decode (40_step_cycle R92 to R94): the instruction at pc, or BoundsError(p, 1) when no first byte stands
there, or BoundsError(p + 1, 2) when the first byte is legal and its payload runs past the end. The order of the checks is
that of 40_step_cycle R100: an illegal byte decodes to a reserved form before any payload is asked for. Memory is read as
it stands (20_memory R52, 40_step_cycle R102). -/
def fetchInstr (s : State) : Except Cause Instr :=
  match decode (s.mem.window 3 s.pc) with
  | .ok (i, _) => .ok i
  | .error .noFirstByte => .error (.bounds s.pc 1)
  | .error .noPayload => .error (.bounds (s.pc + 1) 2)

/-- The state with bytes placed at pc, its memory made long enough to hold them, and the status Running: the host's load
of a program before a run (70_reset R145, log 6). -/
def State.placeAtPc (s : State) (bytes : List Byte) : State :=
  let m : Memory := { s.mem with size := max s.mem.size (s.pc + bytes.length) }
  (s.setMem (m.place s.pc bytes)).setStatus .running

end Sys2Proof.Machine
end

