-- ==== Sys2Proof/Machine/Step.lean ====
section
/-! DEFINITION. The step (40_step_cycle R101): one call of the VM's step(). -/

namespace Sys2Proof.Machine

/-- One call of step(). In Running it fetches, decodes and executes one instruction, or raises the fetch's fault
(40_step_cycle R91 to R101). In Halted or Faulted the call changes nothing (60_exceptions R139, log 5). -/
def step (s : State) : Host.Outcome State Fault Refusal :=
  match s.status with
  | .running =>
    match fetchInstr s with
    | .ok i => exec i s
    | .error c => .next (s.raise c)
  | .halted => .next s
  | .faulted _ => .next s

/-- The state whose next step runs the table word's instruction: its three bytes placed at pc (log 6). -/
def State.withFetchWord (s : State) (nbits w : Nat) : State := s.placeAtPc (tableWordBytes nbits w)

end Sys2Proof.Machine
end

