-- ==== Sys2Proof/Machine/Assembler.lean ====
section
/-! DEFINITION. The assembler, as far as it defines what the VM executes (00_scope R4): the grammar it accepts
(30_encoding R69 to R78) and its resolution, rewrite and encoding passes (R79 to R88). Source text is a list of
characters; `assembleUtf8` takes the bytes of the text. The points of the grammar the spec does not settle are in
logs 15 to 18. -/

namespace Sys2Proof.Machine

/-- A label name (30_encoding R71). -/
abbrev LabelName := List Char

/-- The assembler's errors (30_encoding R88, 60_exceptions R132). The source gives type names, and a remainder for
ParseError alone (91 N25); what LabelResolutionError carries here is the model's choice (DESIGN CHOICE, log 19). -/
inductive AsmError where
  /-- ParseError with the unmatched remainder (30_encoding R69, log 16). -/
  | parse (remainder : List Char)
  /-- LabelResolutionError (30_encoding R80, R81). No rule names a payload for it: that it carries the name of the label
  at fault is the model's choice (DESIGN CHOICE, log 19). -/
  | labelResolution (name : LabelName)
  /-- EncodingError (30_encoding R86, R87); it carries nothing, as no rule names a payload for it. -/
  | encoding
  deriving DecidableEq, Repr

/-- An argument as written (30_encoding R76). A number is not bounded here: R77's check is made by the encoder. -/
inductive SourceArg where
  | acc
  | imm (n : Nat)
  | dir (n : Nat)
  | label (name : LabelName)
  deriving DecidableEq, Repr

/-- An argument after the rewrite pass (30_encoding R81). -/
inductive PlainArg where
  | acc
  | imm (n : Nat)
  | dir (n : Nat)
  deriving DecidableEq, Repr

/-- What one source instruction stands for: an instruction record, with register 00 and mode 00 where it names none
(30_encoding R60, R61, R82), or a `mem` byte (R78). -/
inductive Stmt (α : Type) where
  | op (o : Op) (r : Reg) (a : α)
  | mem (n : Nat)
  deriving DecidableEq, Repr

/-- A source instruction with the labels attached to it (30_encoding R70). -/
structure Item where
  labels : List LabelName
  stmt : Stmt SourceArg
  deriving DecidableEq, Repr

/-! ### Characters (30_encoding R69, R71, R72, R77) -/

/-- Space, tab, carriage return, line feed (30_encoding R69). -/
def isBlank (c : Char) : Bool := c == ' ' || c == '\t' || c == '\r' || c == '\n'

/-- An ASCII letter (30_encoding R72). -/
def isLetter (c : Char) : Bool := (65 ≤ c.toNat && c.toNat ≤ 90) || (97 ≤ c.toNat && c.toNat ≤ 122)

/-- An ASCII digit (30_encoding R77). -/
def isDecimalDigit (c : Char) : Bool := 48 ≤ c.toNat && c.toNat ≤ 57

/-- A character of a label name (30_encoding R71). -/
def isNameChar (c : Char) : Bool := isLetter c || isDecimalDigit c || c == '_'

/-- An ASCII letter in lower case; other characters unchanged (30_encoding R72). -/
def lowerCase (c : Char) : Char := if 65 ≤ c.toNat ∧ c.toNat ≤ 90 then Char.ofNat (c.toNat + 32) else c

/-- The value of a run of decimal digits (30_encoding R77). -/
def decimalValue (digits : List Char) : Nat := digits.foldl (fun acc c => 10 * acc + (c.toNat - 48)) 0

/-! ### Pieces of the grammar -/

/-- Drops whitespace and comments; a comment runs from ; to the end of its line (30_encoding R69). The flag says that a
comment is open. -/
def skipSeparators : Bool → List Char → List Char
  | _, [] => []
  | true, c :: cs => if c == '\n' then skipSeparators false cs else skipSeparators true cs
  | false, c :: cs =>
    if isBlank c then skipSeparators false cs
    else if c == ';' then skipSeparators true cs
    else c :: cs

/-- At least one whitespace character, and all that follow it (30_encoding R74). -/
def someBlank (cs : List Char) : Option (List Char) :=
  match cs with
  | c :: rest => if isBlank c then some (rest.dropWhile isBlank) else none
  | [] => none

/-- The separator of a register and its argument: a comma, whitespace, or both (30_encoding R74). -/
def argSeparator (cs : List Char) : Option (List Char) :=
  match cs.dropWhile isBlank with
  | ',' :: rest => some (rest.dropWhile isBlank)
  | _ => someBlank cs

/-- A register operand (30_encoding R75). -/
def parseReg (cs : List Char) : Option (Reg × List Char) :=
  match cs with
  | l :: d :: rest =>
    if l == 'R' || l == 'r' then
      if d == '0' then some (.r0, rest)
      else if d == '1' then some (.r1, rest)
      else if d == '2' then some (.r2, rest)
      else none
    else none
  | _ => none

/-- A decimal: one or more digits, all of the run (30_encoding R77). -/
def parseDecimal (cs : List Char) : Option (Nat × List Char) :=
  match cs.takeWhile isDecimalDigit with
  | [] => none
  | ds => some (decimalValue ds, cs.dropWhile isDecimalDigit)

/-- A name: one or more name characters, all of the run (30_encoding R71, log 17). -/
def parseName (cs : List Char) : Option (LabelName × List Char) :=
  match cs.takeWhile isNameChar with
  | [] => none
  | n => some (n, cs.dropWhile isNameChar)

/-- An argument (30_encoding R76): R0, #decimal, decimal or @name. -/
def parseArg (cs : List Char) : Option (SourceArg × List Char) :=
  match cs with
  | '#' :: rest =>
    match parseDecimal rest with
    | some (n, cs') => some (.imm n, cs')
    | none => none
  | '@' :: rest =>
    match parseName rest with
    | some (n, cs') => some (.label n, cs')
    | none => none
  | _ =>
    match parseReg cs with
    | some (.r0, cs') => some (.acc, cs')
    | some (.r1, _) => none
    | some (.r2, _) => none
    | none =>
      match parseDecimal cs with
      | some (n, cs') => some (.dir n, cs')
      | none => none

/-- What a mnemonic is followed by (30_encoding R72 to R74). -/
inductive Shape where
  | nullary (o : Op)
  | argument (o : Op)
  | register (o : Op)
  | binary (o : Op)
  | decimal
  deriving DecidableEq, Repr

/-- The spellings of 30_encoding R63 and R73, in lower case, with their shapes. -/
def spellings : List (List Char × Shape) :=
  [("nop".toList, .nullary .nop), ("noop".toList, .nullary .nop),
   ("halt".toList, .nullary .halt), ("hlt".toList, .nullary .halt),
   ("jmp".toList, .argument .jump), ("jump".toList, .argument .jump),
   ("jmz".toList, .binary .jumpIfZero), ("jumpifzero".toList, .binary .jumpIfZero),
   ("load".toList, .binary .load), ("lod".toList, .binary .load),
   ("store".toList, .binary .store), ("sto".toList, .binary .store), ("stor".toList, .binary .store)]
  ++
  [("add".toList, .binary .add),
   ("sub".toList, .binary .sub), ("subtract".toList, .binary .sub),
   ("mul".toList, .binary .mul), ("multiply".toList, .binary .mul),
   ("div".toList, .binary .div), ("divide".toList, .binary .div),
   ("and".toList, .binary .and), ("or".toList, .binary .or), ("not".toList, .register .not),
   ("cpz".toList, .binary .equalsZero), ("equalszero".toList, .binary .equalsZero),
   ("cpl".toList, .binary .lessThanZero), ("lessthanzero".toList, .binary .lessThanZero),
   ("mem".toList, .decimal), ("memory".toList, .decimal)]

/-- The shape of a mnemonic: the whole word, without regard to case (30_encoding R72). -/
def shapeOf (word : List Char) : Option Shape := spellings.lookup (word.map lowerCase)

/-- What follows a mnemonic of a shape. -/
def parseRest (sh : Shape) (cs : List Char) : Option (Stmt SourceArg × List Char) :=
  match sh with
  | .nullary o => some (.op o .r0 .acc, cs)
  | .argument o =>
    match (someBlank cs).bind parseArg with
    | some (a, cs') => some (.op o .r0 a, cs')
    | none => none
  | .register o =>
    match (someBlank cs).bind parseReg with
    | some (r, cs') => some (.op o r .acc, cs')
    | none => none
  | .binary o =>
    match (someBlank cs).bind parseReg with
    | some (r, cs1) =>
      match (argSeparator cs1).bind parseArg with
      | some (a, cs2) => some (.op o r a, cs2)
      | none => none
    | none => none
  | .decimal =>
    match (someBlank cs).bind parseDecimal with
    | some (n, cs') => some (.mem n, cs')
    | none => none

/-- One instruction without its labels: a maximal run of letters that is a mnemonic, and what its shape asks for
(30_encoding R72 to R74). -/
def parseStmt (cs : List Char) : Option (Stmt SourceArg × List Char) :=
  match shapeOf (cs.takeWhile isLetter) with
  | some sh => parseRest sh (cs.dropWhile isLetter)
  | none => none

/-- One label definition: @, a name, an optional colon (30_encoding R71, 90_conflicts C2). -/
def parseLabel (cs : List Char) : Option (LabelName × List Char) :=
  match cs with
  | '@' :: rest =>
    match parseName rest with
    | some (n, ':' :: cs') => some (n, cs')
    | some (n, cs') => some (n, cs')
    | none => none
  | _ => none

/-- Zero or more label definitions, whitespace and comments allowed after each (30_encoding R70). Fuel bounds their
number; the length of the text is enough. -/
def parseLabels : Nat → List Char → List LabelName × List Char
  | 0, cs => ([], cs)
  | fuel + 1, cs =>
    match parseLabel cs with
    | some (n, cs') =>
      let (ns, rest) := parseLabels fuel (skipSeparators false cs')
      (n :: ns, rest)
    | none => ([], cs)

/-- Label definitions and the instruction they are attached to (30_encoding R70). -/
def parseItem (cs : List Char) : Option (Item × List Char) :=
  let (ns, rest) := parseLabels cs.length cs
  match parseStmt rest with
  | some (st, cs') => some ({ labels := ns, stmt := st }, cs')
  | none => none

/-- Instructions separated by at least one whitespace character or comment (30_encoding R69). The text given starts
where an instruction may start. Fuel bounds the number of instructions; one more than the length of the text is enough. -/
def parseItems : Nat → List Char → Except AsmError (List Item)
  | 0, cs => .error (.parse cs)
  | fuel + 1, cs =>
    match cs with
    | [] => .ok []
    | _ =>
      match parseItem cs with
      | none => .error (.parse cs)
      | some (it, rest) =>
        let next := skipSeparators false rest
        if rest.isEmpty then .ok [it]
        else if next.length = rest.length then .error (.parse rest)
        else
          match parseItems fuel next with
          | .ok its => .ok (it :: its)
          | .error e => .error e

/-- A program: optional whitespace and comments, instructions, optional whitespace and comments; the whole text must
match (30_encoding R69). -/
def parseProgram (text : List Char) : Except AsmError (List Item) :=
  parseItems (text.length + 1) (skipSeparators false text)

/-! ### The passes -/

/-- The encoded size of an instruction; a label argument counts as 3 bytes and `mem` as 1 (30_encoding R79). -/
def Stmt.size : Stmt SourceArg → Nat
  | .op _ _ .acc => 1
  | .op _ _ (.imm _) => 3
  | .op _ _ (.dir _) => 3
  | .op _ _ (.label _) => 3
  | .mem _ => 1

/-- The label table: names with the byte addresses they stand for (30_encoding R80). -/
abbrev LabelTable := List (LabelName × Nat)

/-- Adds the labels of one instruction; a name already in the table is an error (30_encoding R80, 90_conflicts C4). The
address is not bounded here: a label defined above 65535 is an error only where an argument references it, which is the
model's choice (DESIGN CHOICE, log 20). -/
def addLabels (addr : Nat) : List LabelName → LabelTable → Except AsmError LabelTable
  | [], t => .ok t
  | n :: ns, t =>
    match t.lookup n with
    | some _ => .error (.labelResolution n)
    | none => addLabels addr ns ((n, addr) :: t)

/-- The resolution pass: walks the instructions in order, giving each its address (30_encoding R79, R80). -/
def resolveLabels : Nat → List Item → LabelTable → Except AsmError LabelTable
  | _, [], t => .ok t
  | addr, it :: its, t =>
    match addLabels addr it.labels t with
    | .ok t' => resolveLabels (addr + it.stmt.size) its t'
    | .error e => .error e

/-- The rewrite of one argument: a label becomes a direct argument (30_encoding R81). -/
def rewriteArg (t : LabelTable) : SourceArg → Except AsmError PlainArg
  | .acc => .ok .acc
  | .imm n => .ok (.imm n)
  | .dir n => .ok (.dir n)
  | .label n =>
    match t.lookup n with
    | some addr => .ok (.dir addr)
    | none => .error (.labelResolution n)

/-- The rewrite of one instruction (30_encoding R81). -/
def rewriteStmt (t : LabelTable) : Stmt SourceArg → Except AsmError (Stmt PlainArg)
  | .mem n => .ok (.mem n)
  | .op o r a =>
    match rewriteArg t a with
    | .ok a' => .ok (.op o r a')
    | .error e => .error e

/-- The operand of an argument; a value above 65535 is an error (30_encoding R77, R87). For a label's address the check
stands here alone, so that only a referenced label is refused (DESIGN CHOICE, log 20): R81 and R87 name a label address
above 65535 and do not say whether an unreferenced one is an error too. -/
def encodeArg : PlainArg → Except AsmError Arg
  | .acc => .ok .acc
  | .imm n => if n < 65536 then .ok (.imm (BitVec.ofNat 16 n)) else .error .encoding
  | .dir n => if n < 65536 then .ok (.dir (BitVec.ofNat 16 n)) else .error .encoding

/-- The operation is store and its operand immediate (30_encoding R86). -/
def isImmediateStore (o : Op) (a : Arg) : Bool :=
  match o, a with
  | .store, .imm _ => true
  | _, _ => false

/-- The instruction of a record (30_encoding R82, R86). -/
def instrOf (o : Op) (r : Reg) (a : PlainArg) : Except AsmError Instr :=
  match encodeArg a with
  | .ok a' => if isImmediateStore o a' then .error .encoding else .ok (Instr.ofOp o r a')
  | .error e => .error e

/-- The bytes of one instruction or `mem` byte (30_encoding R82 to R84, R87). -/
def encodeStmt : Stmt PlainArg → Except AsmError (List Byte)
  | .mem n => if n < 256 then .ok [BitVec.ofNat 8 n] else .error .encoding
  | .op o r a =>
    match instrOf o r a with
    | .ok i => .ok (encode i)
    | .error e => .error e

/-- A function that may fail over a list, stopping at the first error. -/
def mapAll {α β : Type} (f : α → Except AsmError β) : List α → Except AsmError (List β)
  | [] => .ok []
  | x :: xs =>
    match f x with
    | .error e => .error e
    | .ok y =>
      match mapAll f xs with
      | .ok ys => .ok (y :: ys)
      | .error e => .error e

/-- The passes over parsed instructions: resolution, rewrite, encoding, and the image as the concatenation in program
order (30_encoding R79 to R88). -/
def assembleItems (items : List Item) : Except AsmError (List Byte) :=
  match resolveLabels 0 items [] with
  | .error e => .error e
  | .ok t =>
    match mapAll (fun it => rewriteStmt t it.stmt) items with
    | .error e => .error e
    | .ok stmts =>
      match mapAll encodeStmt stmts with
      | .error e => .error e
      | .ok chunks => .ok chunks.flatten

/-- The assembler: the image of a source text, or its first error; all or nothing (30_encoding R88, log 18). -/
def assemble (text : List Char) : Except AsmError (List Byte) :=
  match parseProgram text with
  | .ok items => assembleItems items
  | .error e => .error e

/-- The assembler on the bytes of a UTF-8 text (30_encoding R69); bytes that are no UTF-8 are refused (log 15). -/
def assembleUtf8 (bytes : List Byte) : Except AsmError (List Byte) :=
  match String.fromUTF8? ⟨(bytes.map fun b => UInt8.ofBitVec b).toArray⟩ with
  | some text => assemble text.toList
  | none => .error (.parse [])

/-- Boot (70_reset R145): the VM constructed from an assembled image followed by the bytes the host reserves after it. -/
def State.boot (image room : List Byte) (r0 r1 r2 : Word) : State := State.launch (image ++ room) r0 r1 r2

end Sys2Proof.Machine
end

