-- ==== Sys2Proof/Machine/Bits.lean ====
section
/-! DEFINITION. The bit-range accessors of the Memory the VM is given (20_memory R38, R39, R47). The VM itself only uses
the byte primitives of Ops, which these equal at bit address 8a (R40, R41). Start and length are integers, so that a
negative argument is rejected and not excluded by the type. -/

namespace Sys2Proof.Machine

/-- How a bit-range access fails. -/
inductive BitError where
  /-- BoundsError: the range reaches past the end, or an argument is negative (20_memory R38, R47). -/
  | bounds
  /-- The number does not fit the range: outside the primitive's precondition (20_memory R39, 93 row 19, log 12). -/
  | tooWide
  deriving DecidableEq, Repr

/-- The bit at a bit address: bit 8k is the most significant bit of byte k (20_memory R35). -/
def Memory.bitAt (m : Memory) (i : Nat) : Bool := (m.get (i / 8)).getMsbD (i % 8)

/-- The bits of a range, first bit first. -/
def Memory.bitRange (m : Memory) (start : Nat) : Nat → List Bool
  | 0 => []
  | n + 1 => m.bitAt start :: Memory.bitRange m (start + 1) n

/-- A list of bits as a big-endian binary integer, first bit most significant (20_memory R38). -/
def numberOfBits (bits : List Bool) : Nat := bits.foldl (fun acc b => 2 * acc + b.toNat) 0

/-- The binary digits of a number, most significant first, zero-padded to a length (20_memory R39). -/
def bitsOfNumber (n : Nat) : Nat → List Bool
  | 0 => []
  | k + 1 => n.testBit k :: bitsOfNumber n k

/-- A byte with its bit j, counted from the most significant, replaced. -/
def setMsb (b : Byte) (j : Nat) (v : Bool) : Byte :=
  let mask : Byte := 0x80#8 >>> j
  if v then b ||| mask else b &&& ~~~mask

/-- One bit of memory replaced. -/
def Memory.setBitAt (m : Memory) (i : Nat) (v : Bool) : Memory := m.set (i / 8) (setMsb (m.get (i / 8)) (i % 8) v)

/-- A list of bits written from a bit address on. -/
def Memory.setBitRange (m : Memory) : Nat → List Bool → Memory
  | _, [] => m
  | i, b :: bs => Memory.setBitRange (m.setBitAt i b) (i + 1) bs

/-- The range [start, start+length) lies in memory, whose length is 8 * MEM_BYTES bits (20_memory R35, R38, R47). -/
def Memory.bitsInRange (m : Memory) (start length : Int) : Bool :=
  decide (0 ≤ start) && decide (0 ≤ length) && decide (start + length ≤ 8 * (m.size : Int))

/-- getBits (20_memory R38). -/
def getBits (m : Memory) (start length : Int) : Except BitError (List Bool) :=
  if m.bitsInRange start length then .ok (m.bitRange start.toNat length.toNat) else .error .bounds

/-- getBitsAsNumber (20_memory R38). -/
def getBitsAsNumber (m : Memory) (start length : Int) : Except BitError Nat :=
  match getBits m start length with
  | .ok bits => .ok (numberOfBits bits)
  | .error e => .error e

/-- setBitsFromNumber (20_memory R39). -/
def setBitsFromNumber (m : Memory) (start length : Int) (number : Nat) : Except BitError Memory :=
  if m.bitsInRange start length then
    if number < 2 ^ length.toNat then .ok (m.setBitRange start.toNat (bitsOfNumber number length.toNat))
    else .error .tooWide
  else .error .bounds

end Sys2Proof.Machine
end

