-- ==== Sys2Proof/Machine/Image.lean ====
section
/-! DEFINITION. The text forms in which a memory image is loaded and dumped (20_memory R54, R55). Text is a list of
characters. -/

namespace Sys2Proof.Machine

/-- The three radices of an encoded memory (20_memory R54). -/
inductive Radix where
  | binary | decimal | hexadecimal
  deriving DecidableEq, Repr

/-- 2, 10 or 16. -/
def Radix.base : Radix → Nat
  | .binary => 2
  | .decimal => 10
  | .hexadecimal => 16

/-- The radix's digits per byte: 8, 3 or 2 (20_memory R54). -/
def Radix.digitsPerByte : Radix → Nat
  | .binary => 8
  | .decimal => 3
  | .hexadecimal => 2

/-- The value of a character as a digit below 16; hexadecimal digits in upper and lower case (20_memory R54). -/
def charValue (c : Char) : Option Nat :=
  let n := c.toNat
  if 48 ≤ n ∧ n ≤ 57 then some (n - 48)
  else if 65 ≤ n ∧ n ≤ 70 then some (n - 55)
  else if 97 ≤ n ∧ n ≤ 102 then some (n - 87)
  else none

/-- The value of a digit of the radix; none for any other character. -/
def Radix.digitValue (r : Radix) (c : Char) : Option Nat :=
  match charValue c with
  | some d => if d < r.base then some d else none
  | none => none

/-- The character of a digit below 16, its letters in the case the flag gives (93 row 23). -/
def digitChar (upper : Bool) (d : Nat) : Char :=
  if d < 10 then Char.ofNat (48 + d) else if upper then Char.ofNat (55 + d) else Char.ofNat (87 + d)

/-- Digits read in groups of `digitsPerByte`, each group one byte in order; none when a group is above 255 or digits are
left over (20_memory R54 step 2). `acc` and `count` are the value and the number of digits of the open group. -/
def Radix.groups (r : Radix) (acc count : Nat) : List Nat → Option (List Byte)
  | [] => if count = 0 then some [] else none
  | d :: ds =>
    let v := acc * r.base + d
    if count + 1 = r.digitsPerByte then
      if v < 256 then
        match Radix.groups r 0 0 ds with
        | some bs => some (BitVec.ofNat 8 v :: bs)
        | none => none
      else none
    else Radix.groups r v (count + 1) ds

/-- The bytes of a text in a radix: characters that are no digit are dropped, the rest is grouped (20_memory R54). -/
def Radix.readBytes (r : Radix) (text : List Char) : Option (List Byte) := r.groups 0 0 (text.filterMap r.digitValue)

/-- A byte in a radix, zero-padded to k digits (20_memory R54). -/
def Radix.byteDigits (r : Radix) (upper : Bool) (v : Nat) : Nat → List Char
  | 0 => []
  | k + 1 => digitChar upper (v / r.base ^ k % r.base) :: Radix.byteDigits r upper v k

/-- Bytes in a radix, newline-joined (20_memory R55), with the case of hexadecimal letters as a flag. -/
def Radix.writeBytes (r : Radix) (upper : Bool) : List Byte → List Char
  | [] => []
  | [b] => r.byteDigits upper b.toNat r.digitsPerByte
  | b :: bs => r.byteDigits upper b.toNat r.digitsPerByte ++ '\n' :: Radix.writeBytes r upper bs

/-- All bytes of a memory, byte 0 first (20_memory R55). -/
def Memory.bytes (m : Memory) : List Byte := (List.range m.size).map m.get

/-- The options of fromEncoded and toEncoded: a radix or the compact form (20_memory R54). -/
inductive TextForm where
  | radix (r : Radix)
  | compact
  deriving DecidableEq, Repr

/-- The empty memory (20_memory R36, R54). -/
def Memory.empty : Memory := Memory.ofBytes []

/-- fromEncoded (20_memory R54): none when the text is no valid image. The compact form is the host's codec (log 13). -/
def Memory.fromEncoded (form : TextForm) (text : List Char) : Option Memory :=
  match form with
  | .radix r => (r.readBytes text).map Memory.ofBytes
  | .compact => (Config.compactDecode text).map Memory.ofBytes

/-- toEncoded (20_memory R55). The case of hexadecimal letters is a free value (log 14). -/
def Memory.toEncoded (form : TextForm) (m : Memory) : List Char :=
  match form with
  | .radix r => r.writeBytes Config.hexUpperCase m.bytes
  | .compact => Config.compactEncode m.bytes

end Sys2Proof.Machine
end

