-- ==== Sys2Proof/Machine/Run.lean ====
section
/-! DEFINITION. The host's use of step(): the report of a call, the run driver with a budget, and the ends of a run
(40_step_cycle R104, 60_exceptions R139, 70_reset R146). -/

namespace Sys2Proof.Machine

/-- The state after a call of step(). The two other outcomes never occur (log 1). -/
def stepState (s : State) : State :=
  match step s with
  | .next t => t
  | .fault _ => s
  | .refused _ => s

/-- What a call of step() reports: the resulting status (60_exceptions R139). -/
def stepReport (s : State) : Status := (stepState s).status

/-- run(budget) of 40_step_cycle R104 with a budget n: steps while the status is Running, at most n of them. -/
def runBudget : Nat → State → State
  | 0, s => s
  | n + 1, s => if s.status = .running then runBudget n (stepState s) else s

/-- The states a run reaches from a state: any number of steps (70_reset R146). With no budget the driver of
40_step_cycle R104 ends in a reachable state that is not Running, or never ends. -/
inductive Reaches : State → State → Prop where
  | refl (s : State) : Reaches s s
  | step {s t u : State} : Reaches s t → Sys2Proof.Machine.step t = .next u → Reaches s u

/-- The run ended well (70_reset R146): the only final status is Halted. -/
def State.endedWell (s : State) : Bool := decide (s.status = .halted)

/-- The run ended badly (70_reset R146). -/
def State.endedBadly (s : State) : Bool :=
  match s.status with
  | .faulted _ => true
  | .running => false
  | .halted => false

end Sys2Proof.Machine
end

