-- ==== Sys2Proof/Safety.lean ====
section
/-! DEFINITION. The terms the statements use: stopped states, which faults a record may hold, the invariant of the
machine, and the state a step leaves unchanged. -/

namespace Sys2Proof.Machine

/-- The status is Halted or Faulted: no step exists (40_step_cycle R91). -/
def State.stopped (s : State) : Bool := decide (s.status ≠ .running)

/-- The access is one of the three that raise BoundsError for the instruction at pc (60_exceptions R128): the fetch, the
operand-field read of a 3-byte form, the direct read at the payload's address. -/
def isAccessOfStep (s : State) (a n : Nat) : Bool :=
  let b := s.mem.get s.pc
  (decide (a = s.pc) && decide (n = 1))
    || (decide (n = 2) && !illegalFirstByte b && modeField b != 0b00#2 && decide (a = s.pc + 1))
    || (decide (n = 2) && !illegalFirstByte b && modeField b == 0b10#2 && decide (a = (s.mem.word (s.pc + 1)).toNat))

/-- A fault record agrees with the machine it stands in (60_exceptions R126 to R130): its pc is the pc the fault left, its
info has the form of its kind, and the state shows the cause: the illegal byte at pc, the access past the end of memory,
the immediate store's first byte, the div's first byte. -/
def faultJustified (s : State) (f : FaultRecord) : Bool :=
  decide (f.pc = s.pc) &&
    match f.kind, f.info with
    | .decodeError, .firstByte b => decide (s.pc < s.mem.size) && s.mem.get s.pc == b && illegalFirstByte b
    | .boundsError, .access a n => decide (a + n > s.mem.size) && isAccessOfStep s a n
    | .encodingError, .empty =>
      decide (s.pc < s.mem.size) && opcField (s.mem.get s.pc) == Op.store.code && modeField (s.mem.get s.pc) == 0b01#2
    | .divideByZero, .empty => decide (s.pc < s.mem.size) && opcField (s.mem.get s.pc) == Op.div.code
    | _, _ => false

/-- The invariant: memory is in its canonical form, and a fault record is justified. -/
def State.inv (s : State) : Bool :=
  s.mem.wf &&
    match s.status with
    | .faulted f => faultJustified s f
    | .running => true
    | .halted => true

/-- Two states have the same registers but for one of them. -/
def sameRegsBut (r : Reg) (s t : State) : Prop := ∀ r', r' ≠ r → t.reg r' = s.reg r'

/-- Two states have the same registers. -/
def sameRegs (s t : State) : Prop := ∀ r, t.reg r = s.reg r

/-- Two states have the same memory: the same length and the same byte at every address. -/
def sameMem (s t : State) : Prop := t.mem.size = s.mem.size ∧ ∀ a, t.mem.get a = s.mem.get a

/-- The status is as it was, or a fault was raised by the instruction at the state's pc (40_step_cycle R96, R97). -/
def statusKeptOrFaulted (s t : State) : Prop := t.status = s.status ∨ ∃ c : Cause, t = s.raise c

/-- The step wrote v into one register and moved pc past the instruction, and did nothing else (10_state R23,
40_step_cycle R96). -/
def writesOnly (r : Reg) (v : Word) (a : Arg) (s t : State) : Prop :=
  t.reg r = v ∧ sameRegsBut r s t ∧ t.pc = s.pc + a.size ∧ t.mem = s.mem ∧ t.status = s.status

/-- The encoding of an operation: its first byte is opc, the register code and the mode code (30_encoding R58), in every
register and mode. -/
def encodedAs (instr : Reg → Arg → Instr) (opc : BitVec 4) : Prop :=
  ∀ r a, (encode (instr r a)).head? = some (firstByteOf opc r.code a.modeCode)

/-- The only faults of an operation are those of operand resolution, which it raises (the Exceptions line of most
instruction rules). -/
def raisesResolution (instr : Reg → Arg → Instr) : Prop :=
  ∀ r a s c, resolve a s = .error c → exec (instr r a) s = .next (s.raise c)

/-- The rule of an instruction whose whole effect is x[reg] <- f sel op; pc <- npc: its encoding, its completion in every
state whose operand resolves, and its faults. -/
def registerRule (instr : Reg → Arg → Instr) (opc : BitVec 4) (f : Word → Word → Word) : Prop :=
  encodedAs instr opc ∧ raisesResolution instr ∧
    ∀ r a s op, resolve a s = .ok op → ∃ t, exec (instr r a) s = .next t ∧ writesOnly r (f (s.reg r) op) a s t

/-- The rule of an instruction that writes no register and no memory: its encoding, its completion in every state whose
operand resolves, and its faults. -/
def controlRule (instr : Reg → Arg → Instr) (opc : BitVec 4) (g : Reg → Arg → Word → State → State) : Prop :=
  encodedAs instr opc ∧ raisesResolution instr ∧
    ∀ r a s op, resolve a s = .ok op → exec (instr r a) s = .next (g r a op s)

/-- The address of the instruction after a list of source instructions (30_encoding R79). -/
def addressAfter (items : List Item) : Nat := (items.map fun it => it.stmt.size).sum

/-- The operand of an assembled argument: a label stands for the address of the instruction it is attached to, in direct
mode (30_encoding R76, R81). -/
def assembledArg (items : List Item) (sa : SourceArg) (a : Arg) : Prop :=
  match sa with
  | .acc => a = .acc
  | .imm n => n < 65536 ∧ a = .imm (BitVec.ofNat 16 n)
  | .dir n => n < 65536 ∧ a = .dir (BitVec.ofNat 16 n)
  | .label name => ∃ before it after, items = before ++ it :: after ∧ name ∈ it.labels ∧
      addressAfter before < 65536 ∧ a = .dir (BitVec.ofNat 16 (addressAfter before))

end Sys2Proof.Machine
end

