-- ==== Sys2Proof/Certificates/Slice0/Obligations.lean ====
section
/-! DEFINITION. The statements for the provers, from the numbered rules of spec/. -/

open Sys2Proof Sys2Proof.Machine

/-! ### Encoding -/

/-- 30_encoding sections 1 and 4: decoding the encoding of a well-formed instruction gives it back, whatever follows. -/
def Obligations.DecodeEncodeRoundTrip : Prop :=
  ∀ (i : Instr) (rest : List Byte), i.wellFormed = true → decode (encode i ++ rest) = .ok (i, rest)

/-- 30_encoding sections 1 and 4: what the decoder reads is well-formed, and its encoding is the bytes it was read from. -/
def Obligations.EncodeDecodeRoundTrip : Prop :=
  ∀ (bytes : List Byte) (i : Instr) (rest : List Byte), decode bytes = .ok (i, rest) →
    i.wellFormed = true ∧ encode i ++ rest = bytes

/-- Words written out from 30_encoding R58 and R63, and the worked bytes of 41_control to 44_logic_compare. -/
def Obligations.WrittenWordsDecode : Prop :=
  decode [0x00#8] = .ok (.nop .r0 .acc, [])
  ∧ decode [0x21#8, 0x00#8, 0x06#8] = .ok (.jump .r0 (.imm 6#16), [])
  ∧ decode [0x45#8, 0x00#8, 0x2A#8] = .ok (.load .r1 (.imm 42#16), [])
  ∧ decode [0x56#8, 0x00#8, 0x0A#8] = .ok (.store .r1 (.dir 10#16), [])
  ∧ decode [0x89#8, 0x01#8, 0x2C#8] = .ok (.mul .r2 (.imm 300#16), [])
  ∧ decode [0xC4#8] = .ok (.not .r1 .acc, [])

/-- 30_encoding R64: a first byte is illegal exactly when b >= 0xF0, or b[3:2] = 11, or b[1:0] = 11; the 121 illegal bytes
are 16, 60 and 45; and an illegal byte at pc raises DecodeError, pc unchanged. -/
def Obligations.IllegalFirstBytes : Prop :=
  (∀ (b : Byte) (rest : List Byte),
    (∃ i : Instr, i.size = 1 ∧ decode (b :: rest) = .ok (i, rest) ∧
      ∀ s, exec i s = .next (s.raise (.decode b)))
      ↔ (0xF0 ≤ b.toNat ∨ b.extractLsb' 2 2 = 3#2 ∨ b.extractLsb' 0 2 = 3#2))
  ∧ ((List.range 256).countP fun n => decide (0xF0 ≤ n)) = 16
  ∧ ((List.range 256).countP fun n => decide (n < 0xF0) && decide (n / 4 % 4 = 3)) = 60
  ∧ ((List.range 256).countP fun n => decide (n < 0xF0) && decide (n / 4 % 4 ≠ 3) && decide (n % 4 = 3)) = 45
  ∧ ((List.range 256).countP fun n => !illegalFirstByte (BitVec.ofNat 8 n)) = 135
  ∧ (∀ s : State, s.status = .running → s.pc < s.mem.size → illegalFirstByte (s.mem.get s.pc) = true →
      ∃ t, step s = .next t ∧ t = s.raise (.decode (s.mem.get s.pc)) ∧ t.pc = s.pc)

/-! ### The step -/

/-- 40_step_cycle R101: when the bytes at pc decode to an instruction, a step in Running is exec of it. Nothing is added
around exec: the pc advance is part of each meaning. -/
def Obligations.StepRunsDecodedInstruction : Prop :=
  ∀ (s : State) (i : Instr) (rest : List Byte), s.status = .running →
    decode (s.mem.window 3 s.pc) = .ok (i, rest) → step s = exec i s

/-- 40_step_cycle R101 through memory: when the encoding of a well-formed instruction stands at pc, a step in Running is
exec of it, also when the instruction ends at the last byte of memory. -/
def Obligations.StepRunsEncodedBytesInMemory : Prop :=
  ∀ (s : State) (i : Instr), s.status = .running → i.wellFormed = true → s.pc + (encode i).length ≤ s.mem.size →
    (∀ k, k < (encode i).length → s.mem.get (s.pc + k) = (encode i).getD k 0#8) → step s = exec i s

/-- The host's placing (log 6, the model's choice): an instruction placed at pc is the one the next step runs. -/
def Obligations.PlacedInstructionRuns : Prop :=
  ∀ (s : State) (i : Instr), s.mem.wf = true → i.wellFormed = true →
    step (s.placeAtPc (encode i)) = exec i (s.placeAtPc (encode i))

/-- A step of a stopped machine changes nothing and reports the same status (40_step_cycle R91, 60_exceptions R139). That
the interface answers a next state for it is the model's choice (log 5). -/
def Obligations.StoppedStepChangesNothing : Prop :=
  ∀ s : State, s.status ≠ .running → step s = .next s ∧ stepReport s = s.status

/-- Every step answers a next state: no error of this machine leaves the state behind (60_exceptions R125, R134). Two
clauses are the model's choice and no rule: that a fault is a next state of the interface (DESIGN CHOICE, log 1), and
that a call on a Halted or Faulted machine, for which 40_step_cycle R91 says no step exists, answers next with the same
state (DESIGN CHOICE, log 5). -/
def Obligations.EveryStepAnswersNextState : Prop :=
  ∀ s : State, ∃ t, step s = .next t

/-- The host's driver (40_step_cycle R104): n calls of step() and the driver with budget n end in the same state, from
every state. After the machine has stopped the calls go on and the driver does not: that they still agree rests on the
model's choice that a call on a stopped machine answers next with the same state (DESIGN CHOICE, log 5), and that a run
goes through a fault to a state at all on the choice that a fault is a next state (DESIGN CHOICE, log 1). -/
def Obligations.DriverEqualsRepeatedSteps : Prop :=
  ∀ (n : Nat) (s : State), Host.Core.run Sys2Proof.core n s = .next (runBudget n s)

/-- 40_step_cycle R100, 60_exceptions R133: the order of the checks, as one chain. A step in Running reports the first
fault that applies, and no fault when none applies. -/
def Obligations.FirstFaultInOrder : Prop :=
  ∀ s : State, s.status = .running →
    let b := s.mem.get s.pc
    let w := s.mem.word (s.pc + 1)
    let op := if modeField b = 0#2 then s.r0 else if modeField b = 1#2 then w else s.mem.word w.toNat
    if s.pc + 1 > s.mem.size then step s = .next (s.raise (.bounds s.pc 1))
    else if illegalFirstByte b = true then step s = .next (s.raise (.decode b))
    else if modeField b ≠ 0#2 ∧ s.pc + 3 > s.mem.size then step s = .next (s.raise (.bounds (s.pc + 1) 2))
    else if modeField b = 2#2 ∧ w.toNat + 2 > s.mem.size then step s = .next (s.raise (.bounds w.toNat 2))
    else if opcField b = 5#4 ∧ modeField b = 1#2 then step s = .next (s.raise .encoding)
    else if opcField b = 9#4 ∧ op = 0#16 then step s = .next (s.raise .divideByZero)
    else ∃ t, step s = .next t ∧ (t.status = .running ∨ t.status = .halted)

/-- 60_exceptions R128: the three accesses that raise BoundsError, that no other does, and that the store's write cannot
fail once its read has succeeded. -/
def Obligations.BoundsErrorExactlyThreeAccesses : Prop :=
  (∀ s : State, s.status = .running →
    let b := s.mem.get s.pc
    let w := s.mem.word (s.pc + 1)
    (s.mem.size < s.pc + 1 → step s = .next (s.raise (.bounds s.pc 1)))
    ∧ (s.pc < s.mem.size → illegalFirstByte b = false → modeField b ≠ 0#2 → s.mem.size < s.pc + 3 →
        step s = .next (s.raise (.bounds (s.pc + 1) 2)))
    ∧ (s.pc + 3 ≤ s.mem.size → illegalFirstByte b = false → modeField b = 2#2 → s.mem.size < w.toNat + 2 →
        step s = .next (s.raise (.bounds w.toNat 2)))
    ∧ (∀ a n, step s = .next (s.raise (.bounds a n)) →
        (a = s.pc ∧ n = 1 ∧ s.mem.size < s.pc + 1)
        ∨ (a = s.pc + 1 ∧ n = 2 ∧ modeField b ≠ 0#2 ∧ s.mem.size < s.pc + 3)
        ∨ (a = w.toNat ∧ n = 2 ∧ modeField b = 2#2 ∧ s.mem.size < w.toNat + 2)))
  ∧ (∀ (m : Memory) (ea : Nat) (op v : Word), memRead2 m ea = .ok op → ∃ m', memWrite2 m ea v = .ok m')

/-- 40_step_cycle R97 (the spec's decision D9): a step that raises a fault commits nothing but the status, whose record is
the kind raised, pc = p, and the info raised. -/
def Obligations.FaultsArePrecise : Prop :=
  ∀ (s t : State) (f : FaultRecord), s.status = .running → step s = .next t → t.status = .faulted f →
    t.pc = s.pc ∧ t.r0 = s.r0 ∧ t.r1 = s.r1 ∧ t.r2 = s.r2 ∧ t.mem = s.mem
    ∧ ∃ c : Cause, f = { kind := c.kind, pc := s.pc, info := c.info }

/-- 10_state R28: the status leaves Running only through a halt instruction or a fault, and never returns to it. -/
def Obligations.StatusLeavesRunningOnce : Prop :=
  ∀ s t : State, step s = .next t →
    (t.status = .running → s.status = .running)
    ∧ (s.status = .running → t.status = .halted → ∃ r a, fetchInstr s = .ok (.halt r a))
    ∧ (s.status ≠ .running → t.status = s.status)

/-- 40_step_cycle R95: pc becomes p + size, and only jump and a taken jumpIfZero replace it. -/
def Obligations.PcRule : Prop :=
  ∀ (i : Instr) (s t : State), exec i s = .next t → (∃ c, t = s.raise c) ∨
    match i with
    | .jump _ a => ∃ op, resolve a s = .ok op ∧ t.pc = op.toNat
    | .jumpIfZero r a => ∃ op, resolve a s = .ok op ∧ t.pc = if s.reg r = 0#16 then op.toNat else s.pc + i.size
    | _ => t.pc = s.pc + i.size

/-- 20_memory R36: the length of memory is that of MEM_INIT, does not change while the VM runs, and is 0 for the empty
memory. -/
def Obligations.MemoryNeverGrows : Prop :=
  (∀ (memInit : List Byte) (a b c : Word), (State.launch memInit a b c).mem.size = memInit.length)
  ∧ (∀ s t : State, step s = .next t → t.mem.size = s.mem.size)
  ∧ Memory.empty.size = 0

/-- 20_memory section 3: only a store in direct mode changes memory, whatever the state. -/
def Obligations.OnlyDirectStoreChangesMemory : Prop :=
  ∀ s t : State, step s = .next t → t.mem ≠ s.mem →
    ∃ r ea, fetchInstr s = .ok (.store r (.dir ea)) ∧ s.status = .running

/-! ### Invariant -/

/-- Every step keeps the invariant: memory stays canonical, and a fault record, once there, agrees with the machine it
stands in (pc, the form of its info, the byte or access it names). -/
def Obligations.StepKeepsInvariant : Prop :=
  ∀ s t : State, s.inv = true → step s = .next t → t.inv = true

/-- The invariant holds at reset, and reset has the values the spec gives: pc 0 and status Running. The other values of
reset are the model's choice (logs 2, 3, 4) and are not stated here. -/
def Obligations.ResetMeetsInvariant : Prop :=
  State.reset.inv = true ∧ State.reset.pc = 0 ∧ State.reset.status = .running

/-- 70_reset R143: construction sets every piece of state, for every MEM_INIT and R_INIT, and the invariant holds. -/
def Obligations.ConstructionSetsState : Prop :=
  ∀ (memInit : List Byte) (a b c : Word),
    let s := State.launch memInit a b c
    s.pc = 0 ∧ s.r0 = a ∧ s.r1 = b ∧ s.r2 = c ∧ s.status = .running ∧ s.mem.size = memInit.length
    ∧ (∀ k (h : k < memInit.length), s.mem.get k = memInit[k]) ∧ s.inv = true

/-! ### Memory -/

/-- 20_memory R40: MemRead of 1 and 2 bytes, its bounds, and that it equals getBitsAsNumber(8a, 8n). -/
def Obligations.MemReadIsBigEndianBitRead : Prop :=
  ∀ (m : Memory) (a : Nat),
    (m.size < a + 1 → memRead1 m a = .error (.bounds a 1) ∧ getBitsAsNumber m (8 * a) 8 = .error .bounds)
    ∧ (m.size < a + 2 → memRead2 m a = .error (.bounds a 2) ∧ getBitsAsNumber m (8 * a) 16 = .error .bounds)
    ∧ (a + 1 ≤ m.size → memRead1 m a = .ok (m.get a) ∧ getBitsAsNumber m (8 * a) 8 = .ok (m.get a).toNat)
    ∧ (a + 2 ≤ m.size → ∃ v, memRead2 m a = .ok v ∧ v.toNat = (m.get a).toNat * 256 + (m.get (a + 1)).toNat
        ∧ getBitsAsNumber m (8 * a) 16 = .ok v.toNat)

/-- 20_memory section 3: MemWrite puts v[15:8] at a and v[7:0] at a+1 and leaves every other byte, or raises and writes
nothing; reading the word back gives v. -/
def Obligations.MemWriteStoresWord : Prop :=
  ∀ (m : Memory) (a : Nat) (v : Word), m.wf = true →
    (m.size < a + 2 → memWrite2 m a v = .error (.bounds a 2))
    ∧ (a + 2 ≤ m.size → ∃ m', memWrite2 m a v = .ok m' ∧ m'.wf = true ∧ m'.size = m.size
        ∧ (m'.get a).toNat = v.toNat / 256 ∧ (m'.get (a + 1)).toNat = v.toNat % 256
        ∧ (∀ k, k ≠ a → k ≠ a + 1 → m'.get k = m.get k) ∧ memRead2 m' a = .ok v)

/-- 20_memory section 3: MemWrite(a, 2, v) equals setBitsFromNumber(8a, 16, v), as memories. -/
def Obligations.MemWriteIsBitWrite : Prop :=
  ∀ (m : Memory) (a : Nat) (v : Word), m.wf = true → a + 2 ≤ m.size →
    ∃ m', memWrite2 m a v = .ok m' ∧ setBitsFromNumber m (8 * a) 16 v.toNat = .ok m'

/-- 20_memory section 2: a number written to a bit range is read back, and no bit outside the range changes. -/
def Obligations.BitWriteReadsBack : Prop :=
  ∀ (m m' : Memory) (start length n : Nat), m.wf = true → setBitsFromNumber m start length n = .ok m' →
    getBitsAsNumber m' start length = .ok n ∧ m'.size = m.size
    ∧ ∀ i, (i < start ∨ start + length ≤ i) → m'.bitAt i = m.bitAt i

/-- 20_memory R38 and R47: a bit range that reaches past the end, or has a negative argument, is a BoundsError for all
three accessors. For a number too wide for its range, which 93 row 19 puts outside the precondition of
setBitsFromNumber, that the bounds are reported first is the model's reading (DEDUCED, log 12). -/
def Obligations.BitRangeBounds : Prop :=
  ∀ (m : Memory) (start length : Int) (n : Nat), (start < 0 ∨ length < 0 ∨ 8 * (m.size : Int) < start + length) →
    getBits m start length = .error .bounds ∧ getBitsAsNumber m start length = .error .bounds
    ∧ setBitsFromNumber m start length n = .error .bounds

/-- 20_memory R52: a store over the next instruction is seen by the next step, with no fence: that step runs what the
stored bytes decode to. -/
def Obligations.StoreOverNextInstructionIsFetched : Prop :=
  ∀ (r : Reg) (ea : Word) (s : State) (i : Instr) (rest : List Byte), s.mem.wf = true → s.status = .running →
    ea.toNat = s.pc + 3 → ea.toNat + 2 ≤ s.mem.size →
    decode (hiByte (s.reg r) :: loByte (s.reg r) :: s.mem.window 1 (ea.toNat + 2)) = .ok (i, rest) →
    ∃ t, exec (.store r (.dir ea)) s = .next t ∧ step t = exec i t

/-! ### Operands -/

/-- 30_encoding R62 and 40_step_cycle section on operand resolution: the operand of each mode and its size. -/
def Obligations.OperandOfEachMode : Prop :=
  ∀ (s : State) (v : Word),
    (resolve .acc s = .ok s.r0 ∧ Arg.acc.size = 1)
    ∧ (resolve (.imm v) s = .ok v ∧ (Arg.imm v).size = 3)
    ∧ (Arg.dir v).size = 3
    ∧ (v.toNat + 2 ≤ s.mem.size → ∃ op, resolve (.dir v) s = .ok op
        ∧ op.toNat = (s.mem.get v.toNat).toNat * 256 + (s.mem.get (v.toNat + 1)).toNat)
    ∧ (s.mem.size < v.toNat + 2 → resolve (.dir v) s = .error (.bounds v.toNat 2))

/-- 40_step_cycle section on operand resolution: a direct operand past the end of memory raises BoundsError(ea, 2)
whatever the operation, also one that ignores its operand. -/
def Obligations.DirectReadFaultsWhateverTheOperation : Prop :=
  ∀ (o : Op) (r : Reg) (ea : Word) (s : State), s.mem.size < ea.toNat + 2 →
    exec (Instr.ofOp o r (.dir ea)) s = .next (s.raise (.bounds ea.toNat 2))

/-! ### The instructions -/

/-- 41_control R105 -/
def Obligations.NopOnlyAdvancesPc : Prop :=
  controlRule .nop 0b0000#4 fun _ a _ s => { s with pc := s.pc + a.size }

/-- 41_control R106 -/
def Obligations.HaltStopsAfterItself : Prop :=
  controlRule .halt 0b0001#4 fun _ a _ s => { s with pc := s.pc + a.size, status := .halted }

/-- 41_control R107 -/
def Obligations.JumpSetsPcToOperand : Prop :=
  controlRule .jump 0b0010#4 fun _ _ op s => { s with pc := op.toNat }

/-- 41_control R108 -/
def Obligations.JumpIfZeroTestsSelected : Prop :=
  controlRule .jumpIfZero 0b0011#4 fun r a op s =>
    { s with pc := if (s.reg r).toNat = 0 then op.toNat else s.pc + a.size }

/-- 42_data_transfer R109 -/
def Obligations.LoadWritesOperand : Prop :=
  registerRule .load 0b0100#4 fun _ op => op

/-- 42_data_transfer R110: the three modes of store, its encoding and its faults. The stored word is read back through
the bytes at ea and ea + 1; every other byte is as before. -/
def Obligations.StoreInEachMode : Prop :=
  encodedAs .store 0b0101#4 ∧ raisesResolution .store
  ∧ (∀ (r : Reg) (s : State), ∃ t, exec (.store r .acc) s = .next t ∧ writesOnly .r0 (s.reg r) .acc s t)
  ∧ (∀ (r : Reg) (v : Word) (s : State), exec (.store r (.imm v)) s = .next (s.raise .encoding))
  ∧ (∀ (r : Reg) (ea : Word) (s : State), s.mem.wf = true → ea.toNat + 2 ≤ s.mem.size →
      ∃ t, exec (.store r (.dir ea)) s = .next t ∧ sameRegs s t ∧ t.pc = s.pc + 3 ∧ t.status = s.status
        ∧ t.mem.size = s.mem.size
        ∧ (t.mem.get ea.toNat).toNat = (s.reg r).toNat / 256 ∧ (t.mem.get (ea.toNat + 1)).toNat = (s.reg r).toNat % 256
        ∧ ∀ k, k ≠ ea.toNat → k ≠ ea.toNat + 1 → t.mem.get k = s.mem.get k)

/-- 43_arithmetic R112 -/
def Obligations.AddWraps : Prop :=
  registerRule .add 0b0110#4 fun sel op => BitVec.ofNat 16 ((sel.toNat + op.toNat) % 65536)

/-- 43_arithmetic R113 -/
def Obligations.SubWraps : Prop :=
  registerRule .sub 0b0111#4 fun sel op => BitVec.ofNat 16 (((sel.toNat : Int) - op.toNat) % 65536).toNat

/-- 43_arithmetic R114 -/
def Obligations.MulKeepsLowHalf : Prop :=
  registerRule .mul 0b1000#4 fun sel op => BitVec.ofNat 16 ((sel.toNat * op.toNat) % 65536)

/-- 43_arithmetic R115 and 60_exceptions R130: the unsigned floor quotient for a non-zero operand, DivideByZero for zero. -/
def Obligations.DivFloorsOrFaults : Prop :=
  encodedAs .div 0b1001#4 ∧ raisesResolution .div
  ∧ (∀ (r : Reg) (a : Arg) (s : State) (op : Word), resolve a s = .ok op → op ≠ 0#16 →
      ∃ t, exec (.div r a) s = .next t ∧ (t.reg r).toNat = (s.reg r).toNat / op.toNat ∧ sameRegsBut r s t
        ∧ t.pc = s.pc + a.size ∧ t.mem = s.mem ∧ t.status = s.status)
  ∧ (∀ (r : Reg) (a : Arg) (s : State), resolve a s = .ok 0#16 →
      exec (.div r a) s = .next (s.raise .divideByZero))

/-- 44_logic_compare R120 -/
def Obligations.AndOfSenses : Prop :=
  registerRule .and 0b1010#4 fun sel op => if sel.toNat = 1 ∧ op.toNat = 1 then 1#16 else 0#16

/-- 44_logic_compare R121 -/
def Obligations.OrOfSenses : Prop :=
  registerRule .or 0b1011#4 fun sel op => if sel.toNat = 1 ∨ op.toNat = 1 then 1#16 else 0#16

/-- 44_logic_compare R122 -/
def Obligations.NotOfSense : Prop :=
  registerRule .not 0b1100#4 fun sel _ => if sel.toNat = 1 then 0#16 else 1#16

/-- 44_logic_compare R123 -/
def Obligations.EqualsZeroTestsOperand : Prop :=
  registerRule .equalsZero 0b1101#4 fun _ op => if op.toNat = 0 then 1#16 else 0#16

/-- 44_logic_compare R124: the sign bit, which is set exactly when the signed reading is negative, that is from 32768 on. -/
def Obligations.LessThanZeroTestsSignBit : Prop :=
  (registerRule .lessThanZero 0b1110#4 fun _ op => if op.getLsbD 15 then 1#16 else 0#16)
  ∧ ∀ op : Word, (op.getLsbD 15 = true ↔ 32768 ≤ op.toNat) ∧ (op.getLsbD 15 = true ↔ signedReading op < 0)

/-- The reserved rows of the opcode table (30_encoding R64, 60_exceptions R127): DecodeError(b) for the illegal byte, and
nothing else. -/
def Obligations.ReservedPatternsRaiseDecodeError : Prop :=
  ∀ (s : State) (o : BitVec 4) (x m : BitVec 2) (r : Reg),
    (exec (.reservedOpcode x m) s =
      .next { s with status := .faulted { kind := .decodeError, pc := s.pc, info := .firstByte (firstByteOf 0b1111#4 x m) } })
    ∧ (exec (.reservedRegister o m) s =
      .next { s with status := .faulted { kind := .decodeError, pc := s.pc, info := .firstByte (firstByteOf o 0b11#2 m) } })
    ∧ (exec (.reservedMode o r) s =
      .next { s with status := .faulted { kind := .decodeError, pc := s.pc, info := .firstByte (firstByteOf o r.code 0b11#2) } })

/-- 43_arithmetic R116: add, sub and mul give the same 16 bits under the signed reading. -/
def Obligations.SignedArithmeticAgrees : Prop :=
  ∀ (r : Reg) (a : Arg) (s : State) (op : Word), resolve a s = .ok op →
    ∃ t u v, exec (.add r a) s = .next t ∧ exec (.sub r a) s = .next u ∧ exec (.mul r a) s = .next v
      ∧ (65536 : Int) ∣ signedReading (t.reg r) - (signedReading (s.reg r) + signedReading op)
      ∧ (65536 : Int) ∣ signedReading (u.reg r) - (signedReading (s.reg r) - signedReading op)
      ∧ (65536 : Int) ∣ signedReading (v.reg r) - signedReading (s.reg r) * signedReading op

/-- 43_arithmetic R118, the four results with R0 as both operands. -/
def Obligations.AccumulatorWithItself : Prop :=
  ∀ s : State,
    (∃ t, exec (.add .r0 .acc) s = .next t ∧ t.r0.toNat = 2 * s.r0.toNat % 65536)
    ∧ (∃ t, exec (.sub .r0 .acc) s = .next t ∧ t.r0 = 0#16)
    ∧ (∃ t, exec (.mul .r0 .acc) s = .next t ∧ t.r0.toNat = s.r0.toNat * s.r0.toNat % 65536)
    ∧ (s.r0 ≠ 0#16 → ∃ t, exec (.div .r0 .acc) s = .next t ∧ t.r0 = 1#16)
    ∧ (s.r0 = 0#16 → exec (.div .r0 .acc) s = .next (s.raise .divideByZero))

/-! ### Frames -/

/-- 10_state R23, 43_arithmetic R117: the ten instructions that write the selected register, in every mode, change no
other register, no byte of memory, and the status only by a fault. -/
def Obligations.RegisterWritersFrame : Prop :=
  ∀ o ∈ [Op.load, .add, .sub, .mul, .div, .and, .or, .not, .equalsZero, .lessThanZero],
    ∀ (r : Reg) (a : Arg) (s t : State), exec (Instr.ofOp o r a) s = .next t →
      sameRegsBut r s t ∧ sameMem s t ∧ statusKeptOrFaulted s t

/-- 41_control: nop, halt, jump and jumpIfZero, in every mode, change no register and no byte of memory; the status
changes only by a fault, or to Halted by halt. -/
def Obligations.ControlFrame : Prop :=
  ∀ o ∈ [Op.nop, .halt, .jump, .jumpIfZero],
    ∀ (r : Reg) (a : Arg) (s t : State), exec (Instr.ofOp o r a) s = .next t →
      sameRegs s t ∧ sameMem s t ∧ (statusKeptOrFaulted s t ∨ (o = .halt ∧ t.status = .halted))

/-- 42_data_transfer R110: a store in accumulator mode changes R0 alone; in immediate mode nothing but the status; in
direct mode no register, and no byte outside ea and ea + 1. -/
def Obligations.StoreFrame : Prop :=
  ∀ (r : Reg) (s t : State),
    (exec (.store r .acc) s = .next t → sameRegsBut .r0 s t ∧ sameMem s t ∧ statusKeptOrFaulted s t)
    ∧ (∀ v, exec (.store r (.imm v)) s = .next t → sameRegs s t ∧ sameMem s t ∧ t.pc = s.pc)
    ∧ (∀ ea : Word, exec (.store r (.dir ea)) s = .next t → sameRegs s t ∧ statusKeptOrFaulted s t
        ∧ t.mem.size = s.mem.size ∧ ∀ k, k ≠ ea.toNat → k ≠ ea.toNat + 1 → t.mem.get k = s.mem.get k)

/-- 60_exceptions R134: the reserved patterns change nothing but the status. -/
def Obligations.ReservedFrame : Prop :=
  ∀ (s t : State) (i : Instr),
    ((∃ x m, i = .reservedOpcode x m) ∨ (∃ o m, i = .reservedRegister o m) ∨ (∃ o r, i = .reservedMode o r)) →
    exec i s = .next t → sameRegs s t ∧ sameMem s t ∧ t.pc = s.pc ∧ ∃ b, t.status = .faulted ⟨.decodeError, s.pc, .firstByte b⟩

/-- 10_state R22: nop, halt, jump, load, equalsZero and lessThanZero do not read the selected register. With another
value in it, and it not the operand of accumulator mode, the step does the same to everything else; and load, equalsZero
and lessThanZero, when their operand resolves, leave the same value in it. -/
def Obligations.SelectedRegisterNotRead : Prop :=
  ∀ o ∈ [Op.nop, .halt, .jump, .load, .equalsZero, .lessThanZero],
    ∀ (r : Reg) (a : Arg) (v : Word) (s t : State), (r ≠ .r0 ∨ a ≠ .acc) → exec (Instr.ofOp o r a) s = .next t →
      ∃ t', exec (Instr.ofOp o r a) (s.setReg r v) = .next t' ∧ t'.pc = t.pc ∧ t'.mem = t.mem ∧ t'.status = t.status
        ∧ sameRegsBut r t t'
        ∧ ((o = .load ∨ o = .equalsZero ∨ o = .lessThanZero) → (∃ op, resolve a s = .ok op) → t'.reg r = t.reg r)

/-! ### The memory image and the assembler -/

/-- 20_memory R55: for each radix, loading the dump of a memory gives that memory. The case of hexadecimal letters is a
free value (log 14): the statement holds for both. -/
def Obligations.DumpThenLoadIsIdentity : Prop :=
  ∀ (r : Radix) (m : Memory), m.wf = true →
    Memory.fromEncoded (.radix r) (m.toEncoded (.radix r)) = some m

/-- 20_memory R54: an accepted text has exactly digitsPerByte digits for each byte it gives, so leftover digits make it
invalid, whatever other characters stand in it. -/
def Obligations.LoaderGroupsWholeBytes : Prop :=
  ∀ (r : Radix) (text : List Char) (m : Memory), Memory.fromEncoded (.radix r) text = some m →
    (text.filterMap r.digitValue).length = r.digitsPerByte * m.size ∧ m.wf = true

/-- 30_encoding R79 and R85: the image is as long as the sum of the sizes, and the instruction or mem byte at each
resolved address is the one the source wrote there, with the operand the source gives it. -/
def Obligations.AssembledImageHoldsTheProgram : Prop :=
  ∀ (items : List Item) (image : List Byte), assembleItems items = .ok image →
    image.length = addressAfter items
    ∧ ∀ before it after, items = before ++ it :: after →
        match it.stmt with
        | .mem n => n < 256 ∧ image[addressAfter before]? = some (BitVec.ofNat 8 n)
        | .op o r sa => ∃ a, assembledArg items sa a ∧ isImmediateStore o a = false
            ∧ decode (image.drop (addressAfter before)) =
                .ok (Instr.ofOp o r a, image.drop (addressAfter before + it.stmt.size))

/-- 30_encoding R80: a name defined twice is a LabelResolutionError, and otherwise the table gives each label the address
of the instruction it is attached to. That a program with another error too, such as a value out of range, reports the
LabelResolutionError is the model's order of the passes (DEDUCED, log 18). That the error carries a name, and that the
resolution pass succeeds also for a label at an address above 65535, are the model's choices (DESIGN CHOICE, logs 19
and 20). -/
def Obligations.LabelTableRule : Prop :=
  ∀ items : List Item,
    (¬ (items.flatMap fun it => it.labels).Nodup → ∃ name, assembleItems items = .error (.labelResolution name))
    ∧ ((items.flatMap fun it => it.labels).Nodup → ∃ t, resolveLabels 0 items [] = .ok t
        ∧ ∀ before it after, items = before ++ it :: after → ∀ name ∈ it.labels,
            t.lookup name = some (addressAfter before))

/-- 30_encoding R86 and R87: a program with an immediate store, or with a value out of its range, yields no image. -/
def Obligations.AssemblerRefusesBadOperands : Prop :=
  ∀ (items : List Item) (image : List Byte), assembleItems items = .ok image → ∀ it ∈ items,
    (∀ r n, it.stmt ≠ .op .store r (.imm n))
    ∧ (∀ o r n, it.stmt = .op o r (.imm n) → n ≤ 65535)
    ∧ (∀ o r n, it.stmt = .op o r (.dir n) → n ≤ 65535)
    ∧ (∀ n, it.stmt = .mem n → n ≤ 255)

/-- 30_encoding R89: what the parser and encoder make of a source instruction is a canonical form. -/
def Obligations.AssemblerEmitsCanonicalForms : Prop :=
  ∀ (text : List Char) (items : List Item), parseProgram text = .ok items → ∀ it ∈ items,
    ∀ o r sa, it.stmt = .op o r sa → ∀ t pa i, rewriteArg t sa = .ok pa → instrOf o r pa = .ok i →
      i.canonical = true

/-- 30_encoding R72: mnemonics are matched without regard to case. -/
def Obligations.MnemonicsIgnoreCase : Prop :=
  ∀ (w w' : List Char), w.map lowerCase = w'.map lowerCase → shapeOf w = shapeOf w'
    ∧ shapeOf (w.map lowerCase) = shapeOf w
end

