-- ==== Sys2Proof/Laws/Memory.lean ====
section
/-! SUPPORT. The laws of memory: read after write, the canonical form and that every memory operation keeps it, equal
memories are equal data, and what the VM's primitives answer. -/

namespace Sys2Proof.Machine

/-! ### One list of cells -/

/-- A looser lower bound keeps the canonical form. -/
theorem Memory.cellsWf_mono {lo lo' hi : Nat} {cs : List Host.Cell} (h : lo' ≤ lo)
    (hw : Memory.cellsWf lo hi cs = true) : Memory.cellsWf lo' hi cs = true := by
  cases cs with
  | nil => rfl
  | cons c cs =>
    simp only [Memory.cellsWf, Bool.and_eq_true, decide_eq_true_eq] at hw ⊢
    exact ⟨⟨⟨by omega, hw.1.1.2⟩, hw.1.2⟩, hw.2⟩

/-- Below its lower bound a canonical list holds nothing. -/
theorem Memory.lookup_below {lo hi a : Nat} {cs : List Host.Cell} (hw : Memory.cellsWf lo hi cs = true) (h : a < lo) :
    Memory.lookup cs a = Memory.unlisted := by
  induction cs generalizing lo with
  | nil => rfl
  | cons c cs ih =>
    simp only [Memory.cellsWf, Bool.and_eq_true, decide_eq_true_eq] at hw
    rw [Memory.lookup, if_neg (by omega)]
    exact ih hw.2 (by omega)

/-- At and past its upper bound a canonical list holds nothing. -/
theorem Memory.lookup_past {lo hi a : Nat} {cs : List Host.Cell} (hw : Memory.cellsWf lo hi cs = true) (h : hi ≤ a) :
    Memory.lookup cs a = Memory.unlisted := by
  induction cs generalizing lo with
  | nil => rfl
  | cons c cs ih =>
    simp only [Memory.cellsWf, Bool.and_eq_true, decide_eq_true_eq] at hw
    rw [Memory.lookup, if_neg (by omega)]
    exact ih hw.2

/-- Reading after an insertion into a canonical list. -/
theorem Memory.lookup_insert {lo hi a k : Nat} {b : Byte} {cs : List Host.Cell}
    (hw : Memory.cellsWf lo hi cs = true) :
    Memory.lookup (Memory.insert a b cs) k = if k = a then b else Memory.lookup cs k := by
  induction cs generalizing lo with
  | nil => by_cases hb : b = Memory.unlisted <;> by_cases hk : k = a <;> grind [Memory.insert, Memory.lookup]
  | cons c cs ih =>
    obtain ⟨k', c'⟩ := c
    simp only [Memory.cellsWf, Bool.and_eq_true, decide_eq_true_eq] at hw
    have hbelow : a ≤ k' → Memory.lookup cs a = Memory.unlisted := fun h => Memory.lookup_below hw.2 (by omega)
    have := ih hw.2
    by_cases h1 : a < k' <;> by_cases h2 : a = k' <;> by_cases hb : b = Memory.unlisted <;>
      grind [Memory.insert, Memory.lookup]

/-- An insertion inside the bounds keeps the canonical form. -/
theorem Memory.insert_wf {lo hi a : Nat} {b : Byte} {cs : List Host.Cell} (hw : Memory.cellsWf lo hi cs = true)
    (hlo : lo ≤ a) (hhi : a < hi) : Memory.cellsWf lo hi (Memory.insert a b cs) = true := by
  induction cs generalizing lo with
  | nil => by_cases hb : b = Memory.unlisted <;> simp [Memory.insert, Memory.cellsWf, hb, hlo, hhi]
  | cons c cs ih =>
    obtain ⟨k, c'⟩ := c
    simp only [Memory.cellsWf, Bool.and_eq_true, decide_eq_true_eq, bne_iff_ne, ne_eq] at hw
    obtain ⟨⟨⟨h1, h2⟩, h3⟩, h4⟩ := hw
    by_cases hak : a < k
    · by_cases hb : b = Memory.unlisted
      · simp [Memory.insert, Memory.cellsWf, hak, hb, h1, h2, h3, h4]
      · simp [Memory.insert, Memory.cellsWf, hak, hb, h2, h3, h4, hlo, hhi, Nat.succ_le_of_lt hak]
    · by_cases hk : a = k
      · subst hk
        by_cases hb : b = Memory.unlisted
        · simp [Memory.insert, hb, Memory.cellsWf_mono (Nat.le_succ_of_le hlo) h4]
        · simp [Memory.insert, Memory.cellsWf, hb, h1, h2, h4]
      · simp only [Memory.insert, if_neg hak, if_neg hk, Memory.cellsWf, Bool.and_eq_true, decide_eq_true_eq,
          bne_iff_ne, ne_eq]
        exact ⟨⟨⟨h1, h2⟩, h3⟩, ih h4 (by omega)⟩

/-- Two canonical lists that read alike at every address are one list. -/
theorem Memory.cells_ext {lo hi : Nat} {cs ds : List Host.Cell} (hc : Memory.cellsWf lo hi cs = true)
    (hd : Memory.cellsWf lo hi ds = true) (h : ∀ a, Memory.lookup cs a = Memory.lookup ds a) : cs = ds := by
  induction cs generalizing lo ds with
  | nil =>
    cases ds with
    | nil => rfl
    | cons d ds =>
      obtain ⟨k, b⟩ := d
      have hk := h k
      simp_all [Memory.cellsWf, Memory.lookup]
  | cons c cs ih =>
    obtain ⟨j, x⟩ := c
    cases ds with
    | nil =>
      have hj := h j
      simp_all [Memory.cellsWf, Memory.lookup]
    | cons d ds =>
      obtain ⟨k, y⟩ := d
      simp only [Memory.cellsWf, Bool.and_eq_true, decide_eq_true_eq, bne_iff_ne, ne_eq] at hc hd
      have hj := h j
      have hk := h k
      simp only [Memory.lookup] at hj hk
      have hjk : j = k := by
        by_contra hne
        rcases Nat.lt_or_gt_of_ne hne with hlt | hgt
        · rw [if_pos trivial, if_neg (by omega), Memory.lookup_below hd.2 (by omega)] at hj
          exact hc.1.2 hj
        · rw [if_pos trivial, if_neg (by omega), Memory.lookup_below hc.2 (by omega)] at hk
          exact hd.1.2 hk.symm
      subst hjk
      have hxy : x = y := by simpa using hj
      subst hxy
      have htail : cs = ds := by
        refine ih hc.2 hd.2 fun a => ?_
        by_cases ha : j = a
        · subst ha
          rw [Memory.lookup_below hc.2 (by omega), Memory.lookup_below hd.2 (by omega)]
        · have := h a
          simpa [Memory.lookup, ha] using this
      rw [htail]

/-! ### A memory -/

@[simp] theorem Memory.set_size (m : Memory) (a : Nat) (b : Byte) : (m.set a b).size = m.size := rfl

/-- Read after write: the written byte at its address, every other byte as before (20_memory R49). -/
theorem Memory.get_set {m : Memory} (hw : m.wf = true) (a k : Nat) (b : Byte) :
    (m.set a b).get k = if k = a then b else m.get k :=
  Memory.lookup_insert (lo := 0) (hi := m.size) hw

/-- A write inside memory keeps the canonical form. -/
theorem Memory.set_wf {m : Memory} (hw : m.wf = true) {a : Nat} (ha : a < m.size) (b : Byte) :
    (m.set a b).wf = true :=
  Memory.insert_wf hw (Nat.zero_le a) ha

/-- Past its end a canonical memory reads as the unlisted value. -/
theorem Memory.get_past {m : Memory} (hw : m.wf = true) {a : Nat} (ha : m.size ≤ a) : m.get a = Memory.unlisted :=
  Memory.lookup_past hw ha

/-- Equal memories are equal data: two canonical memories of one length that read alike are one. -/
theorem Memory.ext_get {m n : Memory} (hm : m.wf = true) (hn : n.wf = true) (hs : m.size = n.size)
    (h : ∀ a, m.get a = n.get a) : m = n := by
  cases m; cases n
  simp only at hs
  subst hs
  exact congrArg _ (Memory.cells_ext hm hn h)

/-! ### Construction -/

/-- The cells of a list of bytes are canonical. -/
theorem Memory.cellsOf_wf (a : Nat) (bs : List Byte) : Memory.cellsWf a (a + bs.length) (Memory.cellsOf a bs) = true := by
  induction bs generalizing a with
  | nil => rfl
  | cons b bs ih =>
    have h := ih (a + 1)
    rw [show a + 1 + bs.length = a + (b :: bs).length by simp; omega] at h
    by_cases hb : b = Memory.unlisted
    · simp only [Memory.cellsOf, if_pos hb]
      exact Memory.cellsWf_mono (Nat.le_succ a) h
    · simp [Memory.cellsOf, Memory.cellsWf, hb] at h ⊢
      exact h

/-- The cells of a list of bytes read as the list. -/
theorem Memory.lookup_cellsOf (a k : Nat) (bs : List Byte) :
    Memory.lookup (Memory.cellsOf a bs) (a + k) = bs.getD k Memory.unlisted := by
  induction bs generalizing a k with
  | nil => simp [Memory.cellsOf, Memory.lookup]
  | cons b bs ih =>
    have hz : Memory.lookup (Memory.cellsOf (a + 1) bs) a = Memory.unlisted :=
      Memory.lookup_below (Memory.cellsOf_wf (a + 1) bs) (Nat.lt_succ_self a)
    cases k with
    | zero =>
      by_cases hb : b = Memory.unlisted
      · simp [Memory.cellsOf, hb, hz]
      · simp [Memory.cellsOf, hb, Memory.lookup]
    | succ k =>
      have h := ih (a + 1) k
      rw [show a + 1 + k = a + (k + 1) by omega] at h
      by_cases hb : b = Memory.unlisted
      · simp [Memory.cellsOf, hb, h]
      · simp [Memory.cellsOf, hb, Memory.lookup, h]

/-- A constructed memory is canonical. -/
theorem Memory.ofBytes_wf (bs : List Byte) : (Memory.ofBytes bs).wf = true := by
  have h := Memory.cellsOf_wf 0 bs
  simpa [Memory.wf, Memory.ofBytes] using h

@[simp] theorem Memory.ofBytes_size (bs : List Byte) : (Memory.ofBytes bs).size = bs.length := rfl

/-- Byte k of a constructed memory is byte k of the image (20_memory R56). -/
theorem Memory.ofBytes_get (bs : List Byte) (k : Nat) : (Memory.ofBytes bs).get k = bs.getD k Memory.unlisted := by
  have h := Memory.lookup_cellsOf 0 k bs
  simpa [Memory.get, Memory.ofBytes] using h

/-- Zeros are listed nowhere. -/
theorem Memory.cellsOf_replicate (n a : Nat) : Memory.cellsOf a (List.replicate n 0#8) = [] := by
  induction n generalizing a with
  | zero => rfl
  | succ n ih => simp [List.replicate_succ, Memory.cellsOf, Memory.unlisted, ih]

/-- The reset state is a construction, with zeros for MEM_INIT and R_INIT (logs 2, 3, 4). -/
theorem reset_eq_launch :
    State.reset = State.launch (List.replicate Config.resetMemBytes 0#8) 0#16 0#16 0#16 := by
  simp [State.reset, State.launch, Memory.ofBytes, Memory.cellsOf_replicate]

/-! ### The VM's primitives -/

theorem memRead1_ok {m : Memory} {a : Nat} (h : a + 1 ≤ m.size) : memRead1 m a = .ok (m.get a) := by
  rw [memRead1, if_neg (by omega)]

theorem memRead1_error {m : Memory} {a : Nat} (h : m.size < a + 1) : memRead1 m a = .error (.bounds a 1) := by
  rw [memRead1, if_pos (by omega)]

theorem memRead2_ok {m : Memory} {a : Nat} (h : a + 2 ≤ m.size) : memRead2 m a = .ok (m.word a) := by
  rw [memRead2, if_neg (by omega)]

theorem memRead2_error {m : Memory} {a : Nat} (h : m.size < a + 2) : memRead2 m a = .error (.bounds a 2) := by
  rw [memRead2, if_pos (by omega)]

theorem memWrite2_ok {m : Memory} {a : Nat} (v : Word) (h : a + 2 ≤ m.size) :
    memWrite2 m a v = .ok ((m.set a (hiByte v)).set (a + 1) (loByte v)) := by
  rw [memWrite2, if_neg (by omega)]

/-- A 2-byte write that answers keeps the canonical form and the length. -/
theorem memWrite2_wf {m m' : Memory} {a : Nat} {v : Word} (hw : m.wf = true) (h : memWrite2 m a v = .ok m') :
    m'.wf = true ∧ m'.size = m.size := by
  simp only [memWrite2] at h
  split at h
  · cases h
  · cases h
    exact ⟨Memory.set_wf (Memory.set_wf hw (by omega) _) (by simp only [Memory.set_size]; omega) _, rfl⟩

/-- Placing bytes inside memory keeps the canonical form and the length. -/
theorem Memory.place_wf {m : Memory} {a : Nat} {bs : List Byte} (hw : m.wf = true) (h : a + bs.length ≤ m.size) :
    (m.place a bs).wf = true ∧ (m.place a bs).size = m.size := by
  induction bs generalizing m a with
  | nil => exact ⟨hw, rfl⟩
  | cons b bs ih =>
    simp only [List.length_cons] at h
    exact ih (m := m.set a b) (a := a + 1) (Memory.set_wf hw (by omega) b) (by simp only [Memory.set_size]; omega)

/-- A longer memory with the same cells is canonical too. -/
theorem Memory.grow_wf {m : Memory} (hw : m.wf = true) {n : Nat} (h : m.size ≤ n) :
    ({ m with size := n } : Memory).wf = true := by
  obtain ⟨sz, cs⟩ := m
  simp only [Memory.wf] at hw h ⊢
  suffices ∀ lo, Memory.cellsWf lo sz cs = true → Memory.cellsWf lo n cs = true from this 0 hw
  clear hw
  induction cs with
  | nil => intros; rfl
  | cons c cs ih =>
    intro lo hc
    simp only [Memory.cellsWf, Bool.and_eq_true, decide_eq_true_eq] at hc ⊢
    exact ⟨⟨⟨hc.1.1.1, by omega⟩, hc.1.2⟩, ih _ hc.2⟩

/-- Placing an instruction's bytes at pc keeps the canonical form. -/
theorem State.placeAtPc_wf {s : State} (hw : s.mem.wf = true) (bs : List Byte) :
    (s.placeAtPc bs).mem.wf = true :=
  (Memory.place_wf (m := { s.mem with size := max s.mem.size (s.pc + bs.length) }) (Memory.grow_wf hw (by omega))
    (by simp only; omega)).1

/-- The window holds n bytes when they all stand in memory. -/
theorem Memory.window_length {m : Memory} {n a : Nat} : (m.window n a).length = min n (m.size - a) := by
  induction n generalizing a with
  | zero => simp [Memory.window]
  | succ n ih =>
    by_cases h : a < m.size
    · simp [Memory.window, h, ih]; omega
    · simp [Memory.window, h]; omega

end Sys2Proof.Machine
end

