-- ==== Sys2Proof/Laws/Bits.lean ====
section
/-! SUPPORT. The bit-range accessors: lengths, and that a bit-range write keeps the canonical form. -/

namespace Sys2Proof.Machine

@[simp] theorem Memory.bitRange_length (m : Memory) (start n : Nat) : (m.bitRange start n).length = n := by
  induction n generalizing start with
  | zero => rfl
  | succ n ih => simp [Memory.bitRange, ih]

@[simp] theorem bitsOfNumber_length (v n : Nat) : (bitsOfNumber v n).length = n := by
  induction n with
  | zero => rfl
  | succ n ih => simp [bitsOfNumber, ih]

@[simp] theorem Memory.setBitAt_size (m : Memory) (i : Nat) (v : Bool) : (m.setBitAt i v).size = m.size := rfl

/-- A bit-range write keeps the canonical form and the length. -/
theorem Memory.setBitRange_wf {m : Memory} {i : Nat} {bs : List Bool} (hw : m.wf = true)
    (h : i + bs.length ≤ 8 * m.size) : (m.setBitRange i bs).wf = true ∧ (m.setBitRange i bs).size = m.size := by
  induction bs generalizing m i with
  | nil => exact ⟨hw, rfl⟩
  | cons b bs ih =>
    simp only [List.length_cons] at h
    refine ih (m := m.setBitAt i b) (i := i + 1) (Memory.set_wf hw (by omega) _) ?_
    simp only [Memory.setBitAt_size]
    omega

/-- setBitsFromNumber keeps the canonical form and the length. -/
theorem setBitsFromNumber_wf {m m' : Memory} {start length : Int} {n : Nat} (hw : m.wf = true)
    (h : setBitsFromNumber m start length n = .ok m') : m'.wf = true ∧ m'.size = m.size := by
  simp only [setBitsFromNumber] at h
  split at h
  · rename_i hr
    simp only [Memory.bitsInRange, Bool.and_eq_true, decide_eq_true_eq] at hr
    split at h
    · cases h
      exact Memory.setBitRange_wf hw (by rw [bitsOfNumber_length]; omega)
    · cases h
  · cases h

end Sys2Proof.Machine
end

