-- ==== Sys2Proof/Laws/Decode.lean ====
section
/-! SUPPORT. The small laws of bytes, words and fields: a word and its two bytes, a first byte and its three fields, and
the code maps with their inverses. -/

namespace Sys2Proof

/-! ### Words and bytes (20_memory R42) -/

theorem wordOf_toNat (hi lo : Byte) : (wordOf hi lo).toNat = hi.toNat * 256 + lo.toNat := by
  have := lo.isLt
  rw [wordOf, BitVec.toNat_append, ← Nat.shiftLeft_add_eq_or_of_lt this, Nat.shiftLeft_eq]

theorem hiByte_toNat (v : Word) : (hiByte v).toNat = v.toNat / 256 := by
  have := v.isLt
  simp only [hiByte, BitVec.extractLsb'_toNat, Nat.shiftRight_eq_div_pow]
  omega

theorem loByte_toNat (v : Word) : (loByte v).toNat = v.toNat % 256 := by
  simp [loByte, BitVec.extractLsb'_toNat]

@[simp] theorem wordOf_hiByte_loByte (v : Word) : wordOf (hiByte v) (loByte v) = v := by
  apply BitVec.eq_of_toNat_eq
  rw [wordOf_toNat, hiByte_toNat, loByte_toNat]
  omega

@[simp] theorem hiByte_wordOf (hi lo : Byte) : hiByte (wordOf hi lo) = hi := by
  have := lo.isLt
  apply BitVec.eq_of_toNat_eq
  rw [hiByte_toNat, wordOf_toNat]
  omega

@[simp] theorem loByte_wordOf (hi lo : Byte) : loByte (wordOf hi lo) = lo := by
  have := lo.isLt
  apply BitVec.eq_of_toNat_eq
  rw [loByte_toNat, wordOf_toNat]
  omega

/-! ### The first byte (30_encoding R58) -/

@[simp] theorem opcField_firstByteOf (o : BitVec 4) (x m : BitVec 2) : opcField (firstByteOf o x m) = o := by
  revert o x m; decide

@[simp] theorem regField_firstByteOf (o : BitVec 4) (x m : BitVec 2) : regField (firstByteOf o x m) = x := by
  revert o x m; decide

@[simp] theorem modeField_firstByteOf (o : BitVec 4) (x m : BitVec 2) : modeField (firstByteOf o x m) = m := by
  revert o x m; decide

/-- A byte is made of its fields. -/
theorem firstByteOf_fields (b : Byte) : firstByteOf (opcField b) (regField b) (modeField b) = b := by
  revert b; decide

/-- The illegal bytes by their fields (30_encoding R64). -/
theorem illegalFirstByte_iff (b : Byte) :
    illegalFirstByte b = true ↔ opcField b = 0b1111#4 ∨ regField b = 0b11#2 ∨ modeField b = 0b11#2 := by
  revert b; decide

/-! ### The code maps (30_encoding R60, R63) -/

@[simp] theorem Op.ofCode_code (op : Op) : Op.ofCode op.code = some op := by cases op <;> rfl

theorem Op.code_of_ofCode {c : BitVec 4} {op : Op} (h : Op.ofCode c = some op) : op.code = c := by
  have key : ∀ c : BitVec 4, (Op.ofCode c).all (fun op => op.code == c) = true := by decide
  simpa [h] using key c

theorem Op.ofCode_eq_none {c : BitVec 4} : Op.ofCode c = none ↔ c = 0b1111#4 := by revert c; decide

@[simp] theorem Reg.ofCode_code (r : Reg) : Reg.ofCode r.code = some r := by cases r <;> rfl

theorem Reg.code_of_ofCode {c : BitVec 2} {r : Reg} (h : Reg.ofCode c = some r) : r.code = c := by
  have key : ∀ c : BitVec 2, (Reg.ofCode c).all (fun r => r.code == c) = true := by decide
  simpa [h] using key c

theorem Reg.ofCode_eq_none {c : BitVec 2} : Reg.ofCode c = none ↔ c = 0b11#2 := by revert c; decide

/-! ### The instruction of an operation -/

@[simp] theorem encode_ofOp (op : Op) (r : Reg) (a : Arg) : encode (Instr.ofOp op r a) = encodeOp op r a := by
  cases op <;> rfl

@[simp] theorem wellFormed_ofOp (op : Op) (r : Reg) (a : Arg) : (Instr.ofOp op r a).wellFormed = true := by
  cases op <;> rfl

@[simp] theorem size_ofOp (op : Op) (r : Reg) (a : Arg) : (Instr.ofOp op r a).size = a.size := by
  cases op <;> rfl

end Sys2Proof
end

