-- ==== Sys2Proof/Laws/State.lean ====
section
/-! SUPPORT. One lemma per field and update of State: no later proof unfolds a record update. -/

namespace Sys2Proof.Machine

variable (s : State) (r r' : Reg) (v : Word) (t : Nat) (m : Memory) (st : Status) (a : Arg) (c : Cause)

@[simp] theorem State.setPc_pc : (s.setPc t).pc = t := rfl
@[simp] theorem State.setPc_r0 : (s.setPc t).r0 = s.r0 := rfl
@[simp] theorem State.setPc_r1 : (s.setPc t).r1 = s.r1 := rfl
@[simp] theorem State.setPc_r2 : (s.setPc t).r2 = s.r2 := rfl
@[simp] theorem State.setPc_mem : (s.setPc t).mem = s.mem := rfl
@[simp] theorem State.setPc_status : (s.setPc t).status = s.status := rfl
@[simp] theorem State.setPc_reg : (s.setPc t).reg r = s.reg r := by cases r <;> rfl

@[simp] theorem State.setMem_pc : (s.setMem m).pc = s.pc := rfl
@[simp] theorem State.setMem_r0 : (s.setMem m).r0 = s.r0 := rfl
@[simp] theorem State.setMem_r1 : (s.setMem m).r1 = s.r1 := rfl
@[simp] theorem State.setMem_r2 : (s.setMem m).r2 = s.r2 := rfl
@[simp] theorem State.setMem_mem : (s.setMem m).mem = m := rfl
@[simp] theorem State.setMem_status : (s.setMem m).status = s.status := rfl
@[simp] theorem State.setMem_reg : (s.setMem m).reg r = s.reg r := by cases r <;> rfl

@[simp] theorem State.setStatus_pc : (s.setStatus st).pc = s.pc := rfl
@[simp] theorem State.setStatus_r0 : (s.setStatus st).r0 = s.r0 := rfl
@[simp] theorem State.setStatus_r1 : (s.setStatus st).r1 = s.r1 := rfl
@[simp] theorem State.setStatus_r2 : (s.setStatus st).r2 = s.r2 := rfl
@[simp] theorem State.setStatus_mem : (s.setStatus st).mem = s.mem := rfl
@[simp] theorem State.setStatus_status : (s.setStatus st).status = st := rfl
@[simp] theorem State.setStatus_reg : (s.setStatus st).reg r = s.reg r := by cases r <;> rfl

@[simp] theorem State.setReg_pc : (s.setReg r v).pc = s.pc := by cases r <;> rfl
@[simp] theorem State.setReg_mem : (s.setReg r v).mem = s.mem := by cases r <;> rfl
@[simp] theorem State.setReg_status : (s.setReg r v).status = s.status := by cases r <;> rfl

/-- Reading a register after a register write (10_state R20, R23). -/
theorem State.setReg_reg : (s.setReg r v).reg r' = if r' = r then v else s.reg r' := by
  cases r <;> cases r' <;> rfl

@[simp] theorem State.setReg_reg_same : (s.setReg r v).reg r = v := by cases r <;> rfl

theorem State.setReg_reg_other (h : r' ≠ r) : (s.setReg r v).reg r' = s.reg r' := by
  rw [State.setReg_reg, if_neg h]

@[simp] theorem State.advance_pc : (s.advance a).pc = s.pc + a.size := rfl
@[simp] theorem State.advance_r0 : (s.advance a).r0 = s.r0 := rfl
@[simp] theorem State.advance_r1 : (s.advance a).r1 = s.r1 := rfl
@[simp] theorem State.advance_r2 : (s.advance a).r2 = s.r2 := rfl
@[simp] theorem State.advance_mem : (s.advance a).mem = s.mem := rfl
@[simp] theorem State.advance_status : (s.advance a).status = s.status := rfl
@[simp] theorem State.advance_reg : (s.advance a).reg r = s.reg r := by cases r <;> rfl

@[simp] theorem State.raise_pc : (s.raise c).pc = s.pc := rfl
@[simp] theorem State.raise_r0 : (s.raise c).r0 = s.r0 := rfl
@[simp] theorem State.raise_r1 : (s.raise c).r1 = s.r1 := rfl
@[simp] theorem State.raise_r2 : (s.raise c).r2 = s.r2 := rfl
@[simp] theorem State.raise_mem : (s.raise c).mem = s.mem := rfl
@[simp] theorem State.raise_status : (s.raise c).status = .faulted (c.record s.pc) := rfl
@[simp] theorem State.raise_reg : (s.raise c).reg r = s.reg r := by cases r <;> rfl

/-- Two states with the same pc, registers, memory and status are one state (10_state R19). -/
theorem State.ext_parts {s t : State} (hpc : s.pc = t.pc) (hreg : ∀ r, s.reg r = t.reg r) (hmem : s.mem = t.mem)
    (hst : s.status = t.status) : s = t := by
  have h0 : s.r0 = t.r0 := hreg .r0
  have h1 : s.r1 = t.r1 := hreg .r1
  have h2 : s.r2 = t.r2 := hreg .r2
  cases s; cases t; simp_all

end Sys2Proof.Machine
end

