-- ==== Sys2Proof/Laws/Ops.lean ====
section
/-! SUPPORT. What each shared operation can answer, once: operand resolution, the shapes of the meanings, the whole of
exec. Later proofs cite these and do not unfold the operations. -/

namespace Sys2Proof.Machine

/-! ### Operand resolution (40_step_cycle R94) -/

@[simp] theorem resolve_acc (s : State) : resolve .acc s = .ok s.r0 := rfl
@[simp] theorem resolve_imm (v : Word) (s : State) : resolve (.imm v) s = .ok v := rfl

theorem resolve_dir_ok {ea : Word} {s : State} (h : ea.toNat + 2 ≤ s.mem.size) :
    resolve (.dir ea) s = .ok (s.mem.word ea.toNat) :=
  memRead2_ok h

theorem resolve_dir_error {ea : Word} {s : State} (h : s.mem.size < ea.toNat + 2) :
    resolve (.dir ea) s = .error (.bounds ea.toNat 2) :=
  memRead2_error h

/-- Resolution fails only in direct mode, past the end of memory, and then raises BoundsError(ea, 2). -/
theorem resolve_error {a : Arg} {s : State} {c : Cause} (h : resolve a s = .error c) :
    ∃ ea, a = .dir ea ∧ s.mem.size < ea.toNat + 2 ∧ c = .bounds ea.toNat 2 := by
  cases a with
  | acc => cases h
  | imm v => cases h
  | dir ea =>
    by_cases hb : ea.toNat + 2 ≤ s.mem.size
    · rw [resolve_dir_ok hb] at h; cases h
    · rw [resolve_dir_error (by omega)] at h
      cases h
      exact ⟨ea, rfl, by omega, rfl⟩

/-- A direct operand that resolves lies in memory. -/
theorem resolve_dir_inRange {ea op : Word} {s : State} (h : resolve (.dir ea) s = .ok op) : ea.toNat + 2 ≤ s.mem.size := by
  by_contra hb
  rw [resolve_dir_error (by omega)] at h
  cases h

/-! ### The shapes of the meanings -/

theorem withOperand_ok {a : Arg} {s : State} {op : Word} {k : Word → Host.Outcome State Fault Refusal}
    (h : resolve a s = .ok op) : withOperand a s k = k op := by
  simp only [withOperand, h]

theorem withOperand_error {a : Arg} {s : State} {c : Cause} {k : Word → Host.Outcome State Fault Refusal}
    (h : resolve a s = .error c) : withOperand a s k = .next (s.raise c) := by
  simp only [withOperand, h]

/-- A withOperand that answers a next state either resolved its operand and answered by its continuation, or raised
BoundsError(ea, 2) for a direct operand past the end of memory. -/
theorem withOperand_next {a : Arg} {s t : State} {k : Word → Host.Outcome State Fault Refusal}
    (h : withOperand a s k = .next t) :
    (∃ op, resolve a s = .ok op ∧ k op = .next t) ∨
    (∃ ea, a = .dir ea ∧ s.mem.size < ea.toNat + 2 ∧ t = s.raise (.bounds ea.toNat 2)) := by
  cases hr : resolve a s with
  | ok op => exact .inl ⟨op, rfl, by rwa [withOperand_ok hr] at h⟩
  | error c =>
    obtain ⟨ea, rfl, hb, rfl⟩ := resolve_error hr
    rw [withOperand_error hr] at h
    exact .inr ⟨ea, rfl, hb, by cases h; rfl⟩

theorem writeSelected_ok {f : Word → Word → Word} {r : Reg} {a : Arg} {s : State} {op : Word}
    (h : resolve a s = .ok op) :
    writeSelected f r a s = .next ((s.setReg r (f (s.reg r) op)).advance a) :=
  withOperand_ok h

/-- A writeSelected that answers a next state wrote the selected register and moved pc past the instruction, or raised
BoundsError(ea, 2). -/
theorem writeSelected_next {f : Word → Word → Word} {r : Reg} {a : Arg} {s t : State}
    (h : writeSelected f r a s = .next t) :
    (∃ op, resolve a s = .ok op ∧ t = (s.setReg r (f (s.reg r) op)).advance a) ∨
    (∃ ea, a = .dir ea ∧ s.mem.size < ea.toNat + 2 ∧ t = s.raise (.bounds ea.toNat 2)) := by
  rcases withOperand_next h with ⟨op, ho, hk⟩ | hb
  · exact .inl ⟨op, ho, by cases hk; rfl⟩
  · exact .inr hb

end Sys2Proof.Machine
end

