-- ==== Sys2Proof/Laws/PerInstr.lean ====
section
/-! SUPPORT. The statements made for every instruction as a term of the language, one lemma per constructor. -/

namespace Sys2Proof

@[simp] theorem encodeOp_length (op : Op) (r : Reg) (a : Arg) : (encodeOp op r a).length = a.size := by
  cases a <;> rfl

namespace Laws.EncodeSize

/-- The encoder writes as many bytes as the static size of the instruction says (30_encoding R57). -/
def Statement (i : Instr) : Prop := (encode i).length = i.size

theorem nop (r : Reg) (a : Arg) : Statement (.nop r a) := encodeOp_length _ r a
theorem halt (r : Reg) (a : Arg) : Statement (.halt r a) := encodeOp_length _ r a
theorem jump (r : Reg) (a : Arg) : Statement (.jump r a) := encodeOp_length _ r a
theorem jumpIfZero (r : Reg) (a : Arg) : Statement (.jumpIfZero r a) := encodeOp_length _ r a
theorem load (r : Reg) (a : Arg) : Statement (.load r a) := encodeOp_length _ r a
theorem store (r : Reg) (a : Arg) : Statement (.store r a) := encodeOp_length _ r a
theorem add (r : Reg) (a : Arg) : Statement (.add r a) := encodeOp_length _ r a
theorem sub (r : Reg) (a : Arg) : Statement (.sub r a) := encodeOp_length _ r a
theorem mul (r : Reg) (a : Arg) : Statement (.mul r a) := encodeOp_length _ r a
theorem div (r : Reg) (a : Arg) : Statement (.div r a) := encodeOp_length _ r a
theorem and (r : Reg) (a : Arg) : Statement (.and r a) := encodeOp_length _ r a
theorem or (r : Reg) (a : Arg) : Statement (.or r a) := encodeOp_length _ r a
theorem not (r : Reg) (a : Arg) : Statement (.not r a) := encodeOp_length _ r a
theorem equalsZero (r : Reg) (a : Arg) : Statement (.equalsZero r a) := encodeOp_length _ r a
theorem lessThanZero (r : Reg) (a : Arg) : Statement (.lessThanZero r a) := encodeOp_length _ r a
theorem reservedOpcode (x m : BitVec 2) : Statement (.reservedOpcode x m) := rfl
theorem reservedRegister (o : BitVec 4) (m : BitVec 2) : Statement (.reservedRegister o m) := rfl
theorem reservedMode (o : BitVec 4) (r : Reg) : Statement (.reservedMode o r) := rfl

end Laws.EncodeSize

end Sys2Proof
end

