-- ==== Sys2Proof/Laws/Step.lean ====
section
/-! SUPPORT. What exec and step can answer, once: every proof about all instructions or all steps starts from these. -/

namespace Sys2Proof.Machine

/-- Everything an instruction can do: raise a fault; set pc; set pc and halt; write one register and set pc; write the
two bytes of a direct store and set pc. -/
theorem exec_next {i : Instr} {s t : State} (h : exec i s = .next t) :
    (∃ c, t = s.raise c) ∨ (∃ p, t = s.setPc p) ∨
    (∃ r a, i = .halt r a ∧ t = (s.advance a).setStatus .halted) ∨
    (∃ r v p, t = (s.setReg r v).setPc p) ∨
    (∃ r ea m, i = .store r (.dir ea) ∧ memWrite2 s.mem ea.toNat (s.reg r) = .ok m ∧
      t = (s.setMem m).advance (.dir ea)) := by
  have written : ∀ {f : Word → Word → Word} {r : Reg} {a : Arg}, writeSelected f r a s = .next t →
      (∃ c, t = s.raise c) ∨ (∃ r v p, t = (s.setReg r v).setPc p) := fun hw => by
    rcases writeSelected_next hw with ⟨op, -, ht⟩ | ⟨ea, -, -, ht⟩
    · exact .inr ⟨_, _, _, ht⟩
    · exact .inl ⟨_, ht⟩
  have resolved : ∀ {a : Arg} {k : Word → Host.Outcome State Fault Refusal}, withOperand a s k = .next t →
      (∃ c, t = s.raise c) ∨ (∃ op, resolve a s = .ok op ∧ k op = .next t) := fun hw => by
    rcases withOperand_next hw with hk | ⟨ea, -, -, ht⟩
    · exact .inr hk
    · exact .inl ⟨_, ht⟩
  cases i with
  | nop r a =>
    rcases resolved h with hc | ⟨op, -, hk⟩
    · exact .inl hc
    · cases hk; exact .inr (.inl ⟨_, rfl⟩)
  | halt r a =>
    rcases resolved h with hc | ⟨op, -, hk⟩
    · exact .inl hc
    · cases hk; exact .inr (.inr (.inl ⟨r, a, rfl, rfl⟩))
  | jump r a =>
    rcases resolved h with hc | ⟨op, -, hk⟩
    · exact .inl hc
    · cases hk; exact .inr (.inl ⟨_, rfl⟩)
  | jumpIfZero r a =>
    rcases resolved h with hc | ⟨op, -, hk⟩
    · exact .inl hc
    · cases hk
      by_cases hz : isZero (s.reg r) = true
      · exact .inr (.inl ⟨op.toNat, if_pos hz⟩)
      · exact .inr (.inl ⟨s.pc + a.size, if_neg hz⟩)
  | store r a =>
    rcases resolved h with hc | ⟨op, -, hk⟩
    · exact .inl hc
    · cases a with
      | acc => cases hk; exact .inr (.inr (.inr (.inl ⟨_, _, _, rfl⟩)))
      | imm v => cases hk; exact .inl ⟨_, rfl⟩
      | dir ea =>
        simp only at hk
        split at hk
        · rename_i m hm
          cases hk; exact .inr (.inr (.inr (.inr ⟨r, ea, m, rfl, hm, rfl⟩)))
        · cases hk; exact .inl ⟨_, rfl⟩
  | div r a =>
    rcases resolved h with hc | ⟨op, -, hk⟩
    · exact .inl hc
    · by_cases hz : op = 0#16
      · rw [if_pos hz] at hk; cases hk; exact .inl ⟨_, rfl⟩
      · rw [if_neg hz] at hk; cases hk; exact .inr (.inr (.inr (.inl ⟨_, _, _, rfl⟩)))
  | load r a => rw [exec, execLoad] at h; exact (written h).imp id fun hw => .inr (.inr (.inl hw))
  | add r a => rw [exec, execAdd] at h; exact (written h).imp id fun hw => .inr (.inr (.inl hw))
  | sub r a => rw [exec, execSub] at h; exact (written h).imp id fun hw => .inr (.inr (.inl hw))
  | mul r a => rw [exec, execMul] at h; exact (written h).imp id fun hw => .inr (.inr (.inl hw))
  | and r a => rw [exec, execAnd] at h; exact (written h).imp id fun hw => .inr (.inr (.inl hw))
  | or r a => rw [exec, execOr] at h; exact (written h).imp id fun hw => .inr (.inr (.inl hw))
  | not r a => rw [exec, execNot] at h; exact (written h).imp id fun hw => .inr (.inr (.inl hw))
  | equalsZero r a => rw [exec, execEqualsZero] at h; exact (written h).imp id fun hw => .inr (.inr (.inl hw))
  | lessThanZero r a => rw [exec, execLessThanZero] at h; exact (written h).imp id fun hw => .inr (.inr (.inl hw))
  | reservedOpcode x m => cases h; exact .inl ⟨_, rfl⟩
  | reservedRegister o m => cases h; exact .inl ⟨_, rfl⟩
  | reservedMode o r => cases h; exact .inl ⟨_, rfl⟩

/-- The fetch's two faults and what each says of the bytes at pc. -/
theorem fetchInstr_cases (s : State) :
    (∃ i rest, decode (s.mem.window 3 s.pc) = .ok (i, rest) ∧ fetchInstr s = .ok i) ∨
    (decode (s.mem.window 3 s.pc) = .error .noFirstByte ∧ fetchInstr s = .error (.bounds s.pc 1)) ∨
    (decode (s.mem.window 3 s.pc) = .error .noPayload ∧ fetchInstr s = .error (.bounds (s.pc + 1) 2)) := by
  simp only [fetchInstr]
  cases hd : decode (s.mem.window 3 s.pc) with
  | ok p => exact .inl ⟨p.1, p.2, rfl, rfl⟩
  | error e => cases e <;> simp

/-- The fetch as the chain of checks of 40_step_cycle R92 to R94, over the bytes of memory. -/
theorem fetchInstr_eq (s : State) : fetchInstr s =
    if s.mem.size < s.pc + 1 then .error (.bounds s.pc 1)
    else
      match Op.ofCode (opcField (s.mem.get s.pc)) with
      | none => .ok (.reservedOpcode (regField (s.mem.get s.pc)) (modeField (s.mem.get s.pc)))
      | some op =>
        match Reg.ofCode (regField (s.mem.get s.pc)) with
        | none => .ok (.reservedRegister (opcField (s.mem.get s.pc)) (modeField (s.mem.get s.pc)))
        | some r =>
          if modeField (s.mem.get s.pc) = 0b11#2 then .ok (.reservedMode (opcField (s.mem.get s.pc)) r)
          else if modeField (s.mem.get s.pc) = 0b00#2 then .ok (Instr.ofOp op r .acc)
          else if s.mem.size < s.pc + 3 then .error (.bounds (s.pc + 1) 2)
          else if modeField (s.mem.get s.pc) = 0b01#2 then .ok (Instr.ofOp op r (.imm (s.mem.word (s.pc + 1))))
          else .ok (Instr.ofOp op r (.dir (s.mem.word (s.pc + 1)))) := by
  have modes : ∀ m : BitVec 2, m = 0#2 ∨ m = 1#2 ∨ m = 2#2 ∨ m = 3#2 := by decide
  by_cases h1 : s.mem.size < s.pc + 1
  · rw [if_pos h1]
    have : ¬ s.pc < s.mem.size := by omega
    simp [fetchInstr, Memory.window, this, decode]
  · rw [if_neg h1]
    have h1' : s.pc < s.mem.size := by omega
    have h2' : s.pc + 1 + 1 = s.pc + 2 := by omega
    by_cases h2 : s.pc + 1 < s.mem.size <;> by_cases h3 : s.pc + 2 < s.mem.size <;>
      simp only [fetchInstr, Memory.window, h1', h2, if_true, if_false, h3, h2', decode] <;>
      cases Op.ofCode (opcField (s.mem.get s.pc)) with
      | none => rfl
      | some op =>
        simp only
        cases Reg.ofCode (regField (s.mem.get s.pc)) with
        | none => rfl
        | some r =>
          rcases modes (modeField (s.mem.get s.pc)) with h | h | h | h <;> simp [h, Memory.word] <;> omega

/-- Everything a step can do: nothing when the machine is stopped; raise the fetch's fault; execute what it fetched. -/
theorem step_next {s t : State} (h : step s = .next t) :
    (s.status ≠ .running ∧ t = s) ∨
    (s.status = .running ∧ ∃ c, fetchInstr s = .error c ∧ t = s.raise c) ∨
    (s.status = .running ∧ ∃ i, fetchInstr s = .ok i ∧ exec i s = .next t) := by
  cases hs : s.status with
  | running =>
    simp only [step, hs] at h
    cases hf : fetchInstr s with
    | ok i => rw [hf] at h; exact .inr (.inr ⟨rfl, i, rfl, h⟩)
    | error c => rw [hf] at h; cases h; exact .inr (.inl ⟨rfl, c, rfl, rfl⟩)
  | halted => simp only [step, hs] at h; cases h; exact .inl ⟨by simp, rfl⟩
  | faulted f => simp only [step, hs] at h; cases h; exact .inl ⟨by simp, rfl⟩

end Sys2Proof.Machine
end

