-- ==== Sys2Proof/Tests/Slice0.lean ====
section
/-! SUPPORT. Tests on small states, expected results from 95_test_vectors and the examples of the instruction rules, and
one witness for each statement that has hypotheses. -/

namespace Sys2Proof.Machine.Tests

/-- Bytes from numbers. -/
def bytesOf (ns : List Nat) : List Byte := ns.map (BitVec.ofNat 8)

/-- A state of 95_test_vectors: M as bytes from address 0, x = [r0, r1, r2], pc. -/
def mk (m : List Nat) (r0 r1 r2 pc : Nat) : State :=
  { State.launch (bytesOf m) (BitVec.ofNat 16 r0) (BitVec.ofNat 16 r1) (BitVec.ofNat 16 r2) with pc := pc }

/-- pc, R0, R1, R2 after one step, as numbers. -/
def after (s : State) : Nat × Nat × Nat × Nat :=
  let t := stepState s
  (t.pc, t.r0.toNat, t.r1.toNat, t.r2.toNat)

/-- The status after one step. -/
def statusAfter (s : State) : Status := stepReport s

/-! ### WellFormed: one ill-formed term for each check (30_encoding R64) -/

theorem test_wellFormed_refuses_reservedRegister : (Instr.reservedRegister 0b1111#4 0#2).wellFormed = false := by decide
theorem test_wellFormed_refuses_reservedMode : (Instr.reservedMode 0b1111#4 .r0).wellFormed = false := by decide
theorem test_wellFormed_accepts_nop : (Instr.nop .r2 (.dir 7#16)).wellFormed = true := by decide
theorem test_canonical_refuses_immediate_store : (Instr.store .r1 (.imm 1#16)).canonical = false := by decide

/-! ### Decoding: every constructor, from words written out by 30_encoding R58, R63 -/

theorem test_decode_nop : decode [0b00000110#8, 0x12#8, 0x34#8] = .ok (.nop .r1 (.dir 0x1234#16), []) := by decide
theorem test_decode_halt : decode [0b00010000#8] = .ok (.halt .r0 .acc, []) := by decide
theorem test_decode_jump : decode [0b00100010#8, 0x00#8, 0x03#8] = .ok (.jump .r0 (.dir 3#16), []) := by decide
theorem test_decode_jumpIfZero : decode [0b00110101#8, 0x00#8, 0x12#8] = .ok (.jumpIfZero .r1 (.imm 18#16), []) := by decide
theorem test_decode_load : decode [0b01001000#8, 0xAA#8] = .ok (.load .r2 .acc, [0xAA#8]) := by decide
theorem test_decode_store : decode [0b01010110#8, 0x00#8, 0x0A#8] = .ok (.store .r1 (.dir 10#16), []) := by decide
theorem test_decode_add : decode [0b01100101#8, 0x00#8, 0x05#8] = .ok (.add .r1 (.imm 5#16), []) := by decide
theorem test_decode_sub : decode [0b01110101#8, 0x00#8, 0x14#8] = .ok (.sub .r1 (.imm 20#16), []) := by decide
theorem test_decode_mul : decode [0b10001001#8, 0x01#8, 0x2C#8] = .ok (.mul .r2 (.imm 300#16), []) := by decide
theorem test_decode_div : decode [0b10010101#8, 0x00#8, 0x05#8] = .ok (.div .r1 (.imm 5#16), []) := by decide
theorem test_decode_and : decode [0b10100101#8, 0x00#8, 0x01#8] = .ok (.and .r1 (.imm 1#16), []) := by decide
theorem test_decode_or : decode [0b10111001#8, 0x00#8, 0x01#8] = .ok (.or .r2 (.imm 1#16), []) := by decide
theorem test_decode_not : decode [0b11000100#8] = .ok (.not .r1 .acc, []) := by decide
theorem test_decode_equalsZero : decode [0b11011000#8] = .ok (.equalsZero .r2 .acc, []) := by decide
theorem test_decode_lessThanZero : decode [0b11100100#8] = .ok (.lessThanZero .r1 .acc, []) := by decide
theorem test_decode_reservedOpcode : decode [0b11111111#8] = .ok (.reservedOpcode 3#2 3#2, []) := by decide
theorem test_decode_reservedRegister : decode [0b00001100#8] = .ok (.reservedRegister 0#4 0#2, []) := by decide
theorem test_decode_reservedMode : decode [0b01000111#8] = .ok (.reservedMode 4#4 .r1, []) := by decide
theorem test_decode_empty : decode [] = .error .noFirstByte := by decide
theorem test_decode_truncated : decode [0x41#8, 0x00#8] = .error .noPayload := by decide

/-! ### Fetch, decode, operand resolution (95_test_vectors 2.1) -/

theorem test_V1 : statusAfter (mk [0xF0] 0 0 0 0) = .faulted ⟨.decodeError, 0, .firstByte 0xF0#8⟩ := by decide
theorem test_V2 : statusAfter (mk [0x0C] 0 0 0 0) = .faulted ⟨.decodeError, 0, .firstByte 0x0C#8⟩ := by decide
theorem test_V3 : statusAfter (mk [0x03] 0 0 0 0) = .faulted ⟨.decodeError, 0, .firstByte 0x03#8⟩ := by decide
theorem test_V4 : statusAfter (mk [0x00, 0xFF] 0 0 0 1) = .faulted ⟨.decodeError, 1, .firstByte 0xFF#8⟩ := by decide
theorem test_V5 : statusAfter (mk [] 0 0 0 0) = .faulted ⟨.boundsError, 0, .access 0 1⟩ := by decide
theorem test_V7 : statusAfter (mk [0x41, 0x00] 0 0 0 0) = .faulted ⟨.boundsError, 0, .access 1 2⟩ := by decide
theorem test_V8 : statusAfter (mk [0x42, 0x00, 0x03, 0x00] 0 0 0 0) = .faulted ⟨.boundsError, 0, .access 3 2⟩ := by decide
theorem test_V11 : statusAfter (mk [0x02, 0xFF, 0xFF] 0 0 0 0) = .faulted ⟨.boundsError, 0, .access 65535 2⟩ := by decide

/-! ### Control (95_test_vectors 2.2) -/

theorem test_V10_nop : after (mk [0x01, 0xFF, 0xFF] 1 2 3 0) = (3, 1, 2, 3) := by decide
theorem test_V13_halt : stepState (mk [0x10] 1 2 3 0) = { mk [0x10] 1 2 3 1 with status := .halted } := by decide
theorem test_V15_halted : stepState { mk [0x10] 1 2 3 1 with status := .halted } =
    { mk [0x10] 1 2 3 1 with status := .halted } := by decide
theorem test_V16_jump : (after (mk [0x20] 5 0 0 0)).1 = 5 := by decide
theorem test_V18_jump : (after (mk [0x22, 0x00, 0x03, 0x00, 0x07] 0 0 0 0)).1 = 7 := by decide
theorem test_V19_jmz_taken : (after (mk [0x35, 0x00, 0x12] 0 0 0 0)).1 = 18 := by decide
theorem test_V20_jmz_not_taken : (after (mk [0x35, 0x00, 0x12] 0 3 0 0)).1 = 3 := by decide

/-! ### Data transfer (95_test_vectors 2.3) -/

theorem test_V26_load : after (mk [0x42, 0x00, 0x03, 0x12, 0x34] 0 0 0 0) = (3, 4660, 0, 0) := by decide
theorem test_V25_load : after (mk [0x48] 7 0 0 0) = (1, 7, 0, 7) := by decide
theorem test_V28_store : after (mk [0x54] 0 9 0 0) = (1, 9, 9, 0) := by decide
theorem test_V30_store : statusAfter (mk [0x55, 0x00, 0x01] 0 9 0 0) = .faulted ⟨.encodingError, 0, .empty⟩ := by decide
theorem test_V32_store : (stepState (mk [0x56, 0x00, 0x03, 0x00, 0x00] 0 0xABCD 0 0)).mem =
    Memory.ofBytes (bytesOf [0x56, 0x00, 0x03, 0xAB, 0xCD]) := by decide
theorem test_V34_store : (stepState (mk [0x56, 0x00, 0x00] 0 0x1000 0 0)).mem =
    Memory.ofBytes (bytesOf [0x10, 0x00, 0x00]) := by decide

/-! ### Arithmetic (95_test_vectors 2.4) -/

theorem test_V35_add : after (mk [0x65, 0x00, 0x01] 0 65535 0 0) = (3, 0, 0, 0) := by decide
theorem test_V36_add : after (mk [0x60] 40000 0 0 0) = (1, 14464, 0, 0) := by decide
theorem test_V38_sub : after (mk [0x75, 0x00, 0x14] 0 8 0 0) = (3, 0, 65524, 0) := by decide
theorem test_V40_mul : after (mk [0x85, 0xFF, 0xFF] 0 65535 0 0) = (3, 0, 1, 0) := by decide
theorem test_V42_mul : after (mk [0x89, 0x01, 0x2C] 0 0 300 0) = (3, 0, 0, 24464) := by decide
theorem test_V48_div : after (mk [0x95, 0xFF, 0xFF] 0 32768 0 0) = (3, 0, 0, 0) := by decide
theorem test_V44_div : statusAfter (mk [0x95, 0x00, 0x00] 0 17 0 0) = .faulted ⟨.divideByZero, 0, .empty⟩ := by decide

/-! ### Logic and comparison (95_test_vectors 2.5) -/

theorem test_V50_and : after (mk [0xA5, 0x00, 0x01] 0 1 0 0) = (3, 0, 1, 0) := by decide
theorem test_V52_and : after (mk [0xA5, 0xFF, 0xFF] 0 0xFFFF 0 0) = (3, 0, 0, 0) := by decide
theorem test_V53_or : after (mk [0xB9, 0x00, 0x01] 0 0 0 0) = (3, 0, 0, 1) := by decide
theorem test_V54_or : after (mk [0xB9, 0x00, 0x04] 0 0 2 0) = (3, 0, 0, 0) := by decide
theorem test_V58_not : after (mk [0xC4] 0 2 0 0) = (1, 0, 1, 0) := by decide
theorem test_V59_not : after (mk [0xC5, 0x00, 0x00] 0 1 0 0) = (3, 0, 0, 0) := by decide
theorem test_V60_equalsZero : after (mk [0xD8] 0 0 5 0) = (1, 0, 0, 1) := by decide
theorem test_V61_equalsZero : after (mk [0xD5, 0x00, 0x01] 0 9 0 0) = (3, 0, 0, 0) := by decide
theorem test_V62_lessThanZero : after (mk [0xE5, 0x7F, 0xFF] 0 9 0 0) = (3, 0, 0, 0) := by decide
theorem test_V63_lessThanZero : after (mk [0xE5, 0x80, 0x00] 0 9 0 0) = (3, 0, 1, 0) := by decide

/-! ### Memory, images, assembler (95_test_vectors section 1) -/

/-- W6 -/
theorem test_W6_bits : getBitsAsNumber (Memory.ofBytes (bytesOf [0x48, 0x01])) 8 8 = .ok 1 := by decide
/-- A bit range that starts inside a byte: the low four bits of 0x48, the high four of 0x01. -/
theorem test_bits_across_bytes : getBitsAsNumber (Memory.ofBytes (bytesOf [0x48, 0x01])) 4 8 = .ok 0x80 := by decide
/-- W1 -/
theorem test_W1_load_decimal : Memory.fromEncoded (.radix .decimal) "072\n001".toList =
    some (Memory.ofBytes (bytesOf [0x48, 0x01])) := by decide
/-- 20_memory R54: a decimal group above 255 makes the image invalid. -/
theorem test_load_rejects_256 : Memory.fromEncoded (.radix .decimal) "256".toList = none := by decide
/-- W1 -/
theorem test_W1_dump_decimal : Memory.toEncoded (.radix .decimal) (Memory.ofBytes (bytesOf [0x48, 0x01])) =
    "072\n001".toList := by decide
/-- W3 -/
theorem test_W3_assemble : assemble "@L: nop\njmp @L".toList = .ok (bytesOf [0x00, 0x22, 0x00, 0x00]) := by decide
/-- W6 -/
theorem test_W6_assemble : assemble "mem 72\nmem 1".toList = .ok (bytesOf [0x48, 0x01]) := by decide
/-- The lines of P3 around its labels, with a comment and mixed case. -/
theorem test_P3_assemble : assemble "LOAD r1, @X ; word at X\ncpl R2 @Y\n@X mem 78\n@Y: mem 0".toList =
    .ok (bytesOf [0x46, 0x00, 0x06, 0xEA, 0x00, 0x07, 0x4E, 0x00]) := by decide
/-- 30_encoding R72 -/
theorem test_storex_is_parse_error : assemble "nop storex R0, 1".toList = .error (.parse "storex R0, 1".toList) := by decide
/-- 30_encoding R86 -/
theorem test_immediate_store_refused : assemble "store R1, #1".toList = .error .encoding := by decide
/-- 30_encoding R80 -/
theorem test_duplicate_label_refused : assemble "@A @A nop".toList = .error (.labelResolution "A".toList) := by decide
/-- 30_encoding R87 -/
theorem test_wide_literal_refused : assemble "load R1, #65536".toList = .error .encoding := by decide

/-! ### The host's words -/

theorem test_decodeTableWord : decodeTableWord 24 0x2A0045 = some (.load .r1 (.imm 42#16)) := by decide
theorem test_withFetchWord : fetchInstr (State.reset.withFetchWord 8 0x52) = .ok (.store .r0 (.dir 0#16)) := by decide
theorem test_withFetchWord_grows : fetchInstr ((mk [] 0 0 0 0).withFetchWord 8 0x10) = .ok (.halt .r0 .acc) := by decide

/-! ### Witnesses: a concrete state that meets the hypotheses of each statement that has some -/

/-- load R1, #42 alone in memory. -/
def sLoad : State := mk [0x45, 0x00, 0x2A] 0 0 0 0
/-- store R1, 4 with its two data bytes the last two of memory. -/
def sStore : State := mk [0x56, 0x00, 0x04, 0x00, 0x00, 0x00] 0 0xABCD 0 0
/-- store R1, 3 over the next instruction, with 0x10 0x00 to store. -/
def sOver : State := mk [0x56, 0x00, 0x03, 0x21, 0x00] 0 0x1000 0 0

theorem test_witness_DecodeEncodeRoundTrip : (Instr.store .r2 (.dir 0xFFFF#16)).wellFormed = true
    ∧ (Instr.reservedRegister 0b1110#4 3#2).wellFormed = true := by decide
theorem test_witness_EncodeDecodeRoundTrip :
    decode [0xE6#8, 0xFF#8, 0xFF#8, 0x01#8] = .ok (.lessThanZero .r1 (.dir 0xFFFF#16), [0x01#8]) := by decide
/-- The last clause: an illegal byte at the last address. -/
theorem test_witness_IllegalFirstBytes : (mk [0x00, 0xFF] 0 0 0 1).status = .running
    ∧ (mk [0x00, 0xFF] 0 0 0 1).pc < (mk [0x00, 0xFF] 0 0 0 1).mem.size
    ∧ illegalFirstByte ((mk [0x00, 0xFF] 0 0 0 1).mem.get 1) = true := by decide
theorem test_witness_StepRunsDecodedInstruction : sLoad.status = .running
    ∧ decode (sLoad.mem.window 3 sLoad.pc) = .ok (.load .r1 (.imm 42#16), []) := by decide
theorem test_witness_StepRunsEncodedBytesInMemory : sLoad.status = .running
    ∧ (Instr.load .r1 (.imm 42#16)).wellFormed = true
    ∧ sLoad.pc + (encode (.load .r1 (.imm 42#16))).length = sLoad.mem.size
    ∧ ∀ k, k < (encode (.load .r1 (.imm 42#16))).length →
        sLoad.mem.get (sLoad.pc + k) = (encode (.load .r1 (.imm 42#16))).getD k 0#8 := by decide
theorem test_witness_PlacedInstructionRuns : State.reset.mem.wf = true ∧ (Instr.nop .r0 .acc).wellFormed = true := by decide
theorem test_witness_StoppedStepChangesNothing : ({ sLoad with status := .halted } : State).status ≠ .running
    ∧ ({ sLoad with status := .faulted ⟨.encodingError, 0, .empty⟩ } : State).status ≠ .running := by decide
/-- Every branch of the chain, in order, ending with the one that raises nothing. -/
theorem test_witness_FirstFaultInOrder :
    [mk [] 0 0 0 0, mk [0xFF] 0 0 0 0, mk [0x41, 0x00] 0 0 0 0, mk [0x42, 0x00, 0x02] 0 0 0 0, mk [0x51, 0x00, 0x00] 0 0 0 0,
      mk [0x90] 0 0 0 0].map statusAfter =
      [.faulted ⟨.boundsError, 0, .access 0 1⟩, .faulted ⟨.decodeError, 0, .firstByte 0xFF#8⟩,
       .faulted ⟨.boundsError, 0, .access 1 2⟩, .faulted ⟨.boundsError, 0, .access 2 2⟩,
       .faulted ⟨.encodingError, 0, .empty⟩, .faulted ⟨.divideByZero, 0, .empty⟩]
    ∧ statusAfter (mk [0x42, 0x00, 0x01] 0 0 0 0) = .running := by decide
/-- The hypotheses of the operand-field and direct-read clauses; the first clause is `mk []` above. -/
theorem test_witness_BoundsErrorExactlyThreeAccesses :
    ((mk [0x41, 0x00] 0 0 0 0).pc < (mk [0x41, 0x00] 0 0 0 0).mem.size ∧ illegalFirstByte 0x41#8 = false
      ∧ modeField 0x41#8 ≠ 0#2 ∧ (mk [0x41, 0x00] 0 0 0 0).mem.size < 3)
    ∧ ((mk [0x42, 0x00, 0x02] 0 0 0 0).pc + 3 ≤ (mk [0x42, 0x00, 0x02] 0 0 0 0).mem.size
      ∧ illegalFirstByte 0x42#8 = false ∧ modeField 0x42#8 = 2#2
      ∧ (mk [0x42, 0x00, 0x02] 0 0 0 0).mem.size < ((mk [0x42, 0x00, 0x02] 0 0 0 0).mem.word 1).toNat + 2)
    ∧ memRead2 sStore.mem 4 = .ok 0#16 := by decide
theorem test_witness_FaultsArePrecise : (mk [0x90] 0 0 0 0).status = .running
    ∧ statusAfter (mk [0x90] 0 0 0 0) = .faulted ⟨.divideByZero, 0, .empty⟩ := by decide
theorem test_witness_StatusLeavesRunningOnce : sLoad.status = .running ∧ statusAfter sLoad = .running
    ∧ statusAfter (mk [0x10] 0 0 0 0) = .halted := by decide
/-- A taken branch: the next state of the jumpIfZero clause. -/
theorem test_witness_PcRule : exec (.jumpIfZero .r1 (.imm 18#16)) sLoad = .next (sLoad.setPc 18) := by rfl
theorem test_witness_MemoryNeverGrows : step sLoad = .next (stepState sLoad) := by rfl
theorem test_witness_OnlyDirectStoreChangesMemory : step sStore = .next (stepState sStore)
    ∧ (stepState sStore).mem ≠ sStore.mem := ⟨by rfl, by decide⟩
/-- The invariant before a step, and a step that faults, so that its fault clause speaks. -/
theorem test_witness_StepKeepsInvariant : (mk [0x02, 0xFF, 0xFF] 0 0 0 0).inv = true
    ∧ step (mk [0x02, 0xFF, 0xFF] 0 0 0 0) = .next (stepState (mk [0x02, 0xFF, 0xFF] 0 0 0 0))
    ∧ (stepState (mk [0x02, 0xFF, 0xFF] 0 0 0 0)).inv = true := ⟨by decide, by rfl, by decide⟩
theorem test_witness_ConstructionSetsState : 1 < (bytesOf [0x48, 0x01]).length := by decide
/-- Both sides of the two bounds, where they meet. -/
theorem test_witness_MemReadIsBigEndianBitRead : sStore.mem.size < 6 + 1 ∧ 5 + 1 ≤ sStore.mem.size
    ∧ sStore.mem.size < 5 + 2 ∧ 4 + 2 ≤ sStore.mem.size := by decide
theorem test_witness_MemWriteStoresWord : sStore.mem.wf = true ∧ sStore.mem.size < 5 + 2 ∧ 4 + 2 ≤ sStore.mem.size := by
  decide
theorem test_witness_MemWriteIsBitWrite : sStore.mem.wf = true ∧ 4 + 2 ≤ sStore.mem.size := by decide
theorem test_witness_BitWriteReadsBack : sStore.mem.wf = true
    ∧ setBitsFromNumber sStore.mem (4 : Nat) (8 : Nat) 0xFF =
        .ok (Memory.ofBytes (bytesOf [0x5F, 0xF0, 0x04, 0x00, 0x00, 0x00])) := by decide
/-- Each clause alone, at its boundary: a negative start, a negative length, one bit past the end of six bytes. -/
theorem test_witness_BitRangeBounds : sStore.mem.size = 6 ∧ ∀ p ∈ [((-1 : Int), (8 : Int)), (0, -1), (41, 8)],
    p.1 < 0 ∨ p.2 < 0 ∨ 8 * (sStore.mem.size : Int) < p.1 + p.2 := by decide
theorem test_witness_StoreOverNextInstructionIsFetched : sOver.mem.wf = true ∧ sOver.status = .running
    ∧ (3#16).toNat = sOver.pc + 3 ∧ (3#16).toNat + 2 ≤ sOver.mem.size
    ∧ decode (hiByte (sOver.reg .r1) :: loByte (sOver.reg .r1) :: sOver.mem.window 1 5) =
        .ok (.halt .r0 .acc, [0x00#8]) := by decide
/-- The last readable direct address and the first unreadable one. -/
theorem test_witness_OperandOfEachMode : (4#16).toNat + 2 ≤ sStore.mem.size ∧ sStore.mem.size < (5#16).toNat + 2 := by
  decide
theorem test_witness_DirectReadFaultsWhateverTheOperation : sStore.mem.size < (5#16).toNat + 2 := by decide
/-- The hypotheses of controlRule and registerRule: an operand that resolves in each mode, and one that does not. -/
theorem test_witness_operand_resolves : resolve .acc sStore = .ok 0#16 ∧ resolve (.imm 7#16) sStore = .ok 7#16
    ∧ resolve (.dir 4#16) sStore = .ok 0#16 ∧ resolve (.dir 5#16) sStore = .error (.bounds 5 2) := by decide
theorem test_witness_StoreInEachMode : sStore.mem.wf = true ∧ (4#16).toNat + 2 ≤ sStore.mem.size
    ∧ resolve (.dir 5#16) sStore = .error (.bounds 5 2) := by decide
theorem test_witness_DivFloorsOrFaults : resolve (.imm 5#16) sStore = .ok 5#16 ∧ 5#16 ≠ 0#16
    ∧ resolve (.dir 4#16) sStore = .ok 0#16 := by decide
theorem test_witness_SignedArithmeticAgrees : resolve (.imm 0x8000#16) sStore = .ok 0x8000#16 := by decide
theorem test_witness_AccumulatorWithItself : (mk [] 7 0 0 0).r0 ≠ 0#16 ∧ (mk [] 0 0 0 0).r0 = 0#16 := by decide
theorem test_witness_RegisterWritersFrame : exec (Instr.ofOp .load .r1 (.imm 42#16)) sLoad = .next (stepState sLoad) := by
  rfl
theorem test_witness_ControlFrame : exec (Instr.ofOp .halt .r1 .acc) sLoad =
    .next ((sLoad.advance .acc).setStatus .halted) := by rfl
theorem test_witness_StoreFrame : exec (.store .r1 (.dir 4#16)) sStore = .next (stepState sStore)
    ∧ exec (.store .r1 .acc) sStore = .next ((sStore.setReg .r0 0xABCD#16).advance .acc)
    ∧ exec (.store .r1 (.imm 4#16)) sStore = .next (sStore.raise .encoding) := ⟨by rfl, by rfl, by rfl⟩
theorem test_witness_ReservedFrame : exec (.reservedMode 4#4 .r1) sLoad = .next (sLoad.raise (.decode 0x47#8)) := by rfl
theorem test_witness_SelectedRegisterNotRead : Reg.r1 ≠ .r0
    ∧ exec (Instr.ofOp .load .r1 (.imm 42#16)) sLoad = .next (stepState sLoad) := ⟨by decide, by rfl⟩
theorem test_witness_DumpThenLoadIsIdentity : (Memory.ofBytes (bytesOf [0x48, 0x00, 0xFF])).wf = true := by decide
theorem test_witness_LoaderGroupsWholeBytes : Memory.fromEncoded (.radix .hexadecimal) "4 8;fF".toList =
    some (Memory.ofBytes (bytesOf [0x48, 0xFF])) := by decide
/-- A program with a label argument and a mem byte that assembles. -/
theorem test_witness_AssembledImageHoldsTheProgram :
    assembleItems [⟨[], .op .load .r1 (.label "X".toList)⟩, ⟨["X".toList], .mem 255⟩, ⟨[], .mem 0⟩] =
      .ok (bytesOf [0x46, 0x00, 0x03, 0xFF, 0x00]) := by decide
theorem test_witness_LabelTableRule :
    ¬ ([⟨["A".toList, "A".toList], .mem 0⟩].flatMap fun it : Item => it.labels).Nodup
    ∧ ([⟨["A".toList, "B".toList], .mem 0⟩].flatMap fun it : Item => it.labels).Nodup := by decide
theorem test_witness_AssemblerRefusesBadOperands :
    assembleItems [⟨[], .op .load .r1 (.imm 65535)⟩, ⟨[], .mem 255⟩] = .ok (bytesOf [0x45, 0xFF, 0xFF, 0xFF]) := by decide
theorem test_witness_AssemblerEmitsCanonicalForms :
    parseProgram "jmp R0".toList = .ok [⟨[], .op .jump .r0 .acc⟩] ∧ rewriteArg [] .acc = .ok .acc
    ∧ instrOf .jump .r0 .acc = .ok (.jump .r0 .acc) := by decide
theorem test_witness_MnemonicsIgnoreCase : "HaLt".toList.map lowerCase = "hALT".toList.map lowerCase := by decide

end Sys2Proof.Machine.Tests
end

section
/-! PROOFS of the family 10_state: how the status leaves Running, what the register and control instructions leave
unchanged, which instructions do not read the selected register, and the invariant at reset. -/

namespace Sys2Proof.Machine

/-! ### A register write among the other updates of State (10_state R19, R23) -/

section RegisterWrites
variable (s : State) (r : Reg) (v w : Word) (p : Nat) (st : Status) (a : Arg) (c : Cause)

/-- The second of two writes to one register is the one that counts. -/
@[simp] theorem State.setReg_setReg : (s.setReg r v).setReg r w = s.setReg r w := by cases r <;> rfl

theorem State.setPc_setReg : (s.setReg r v).setPc p = (s.setPc p).setReg r v := by cases r <;> rfl

theorem State.setStatus_setReg : (s.setReg r v).setStatus st = (s.setStatus st).setReg r v := by cases r <;> rfl

theorem State.advance_setReg : (s.setReg r v).advance a = (s.advance a).setReg r v := by cases r <;> rfl

theorem State.raise_setReg : (s.setReg r v).raise c = (s.raise c).setReg r v := by cases r <;> rfl

theorem sameRegsBut_setReg : sameRegsBut r s (s.setReg r v) := fun r' h => State.setReg_reg_other s r r' v h

theorem sameRegsBut_refl : sameRegsBut r s s := fun _ _ => rfl

end RegisterWrites

theorem sameMem_of_eq {s t : State} (h : t.mem = s.mem) : sameMem s t :=
  ⟨congrArg Memory.size h, fun k => congrArg (Memory.get · k) h⟩

/-- Only the accumulator operand reads a register, and that register is R0 (40_step_cycle R94). -/
theorem resolve_setReg {r : Reg} {a : Arg} (h : r ≠ .r0 ∨ a ≠ .acc) (s : State) (v : Word) :
    resolve a (s.setReg r v) = resolve a s := by
  cases a with
  | acc =>
    have hr : Reg.r0 ≠ r := (h.resolve_right fun hne => hne rfl).symm
    exact congrArg Except.ok (State.setReg_reg_other s r .r0 v hr)
  | imm n => rfl
  | dir ea => simp only [resolve, State.setReg_mem]

/-! ### The instructions of the shape writeSelected (43_arithmetic, 44_logic_compare, 42_data_transfer R109) -/

section Shapes
variable (r : Reg) (a : Arg) (s : State)

theorem exec_load : exec (.load r a) s = writeSelected (fun _ op => op) r a s := rfl
theorem exec_add : exec (.add r a) s = writeSelected (fun sel op => narrow ((sel.toNat : Int) + op.toNat)) r a s := rfl
theorem exec_sub : exec (.sub r a) s = writeSelected (fun sel op => narrow ((sel.toNat : Int) - op.toNat)) r a s := rfl
theorem exec_mul : exec (.mul r a) s = writeSelected (fun sel op => narrow ((sel.toNat : Int) * op.toNat)) r a s := rfl
theorem exec_and : exec (.and r a) s = writeSelected (fun sel op => boolWord (sense sel && sense op)) r a s := rfl
theorem exec_or : exec (.or r a) s = writeSelected (fun sel op => boolWord (sense sel || sense op)) r a s := rfl
theorem exec_not : exec (.not r a) s = writeSelected (fun sel _ => boolWord (!sense sel)) r a s := rfl
theorem exec_equalsZero : exec (.equalsZero r a) s = writeSelected (fun _ op => boolWord (isZero op)) r a s := rfl
theorem exec_lessThanZero : exec (.lessThanZero r a) s = writeSelected (fun _ op => boolWord (signBit op)) r a s := rfl

/-- Of the ten instructions that write the selected register, all but div are of the shape writeSelected (10_state R23). -/
theorem registerWriter_shape {o : Op}
    (ho : o ∈ [Op.load, .add, .sub, .mul, .div, .and, .or, .not, .equalsZero, .lessThanZero]) :
    o = .div ∨ ∃ f, exec (Instr.ofOp o r a) s = writeSelected f r a s := by
  cases o with
  | div => exact .inl rfl
  | load => exact .inr ⟨_, exec_load r a s⟩
  | add => exact .inr ⟨_, exec_add r a s⟩
  | sub => exact .inr ⟨_, exec_sub r a s⟩
  | mul => exact .inr ⟨_, exec_mul r a s⟩
  | and => exact .inr ⟨_, exec_and r a s⟩
  | or => exact .inr ⟨_, exec_or r a s⟩
  | not => exact .inr ⟨_, exec_not r a s⟩
  | equalsZero => exact .inr ⟨_, exec_equalsZero r a s⟩
  | lessThanZero => exact .inr ⟨_, exec_lessThanZero r a s⟩
  | nop | halt | jump | jumpIfZero | store => exact absurd ho (by decide)

end Shapes

/-! ### What each operation answers, by whether its operand resolves -/

section Answers
variable {r : Reg} {a : Arg} {s t : State} {op : Word}

/-- Every operation resolves its operand first, and raises the fault of a failed resolution (40_step_cycle R94). -/
theorem exec_ofOp_error (o : Op) {c : Cause} (h : resolve a s = .error c) :
    exec (Instr.ofOp o r a) s = .next (s.raise c) := by
  cases o <;> exact withOperand_error h

theorem exec_nop_ok (h : resolve a s = .ok op) : exec (.nop r a) s = .next (s.advance a) := withOperand_ok h

theorem exec_halt_ok (h : resolve a s = .ok op) : exec (.halt r a) s = .next ((s.advance a).setStatus .halted) :=
  withOperand_ok h

theorem exec_jump_ok (h : resolve a s = .ok op) : exec (.jump r a) s = .next (s.setPc op.toNat) := withOperand_ok h

theorem exec_jumpIfZero_ok (h : resolve a s = .ok op) :
    exec (.jumpIfZero r a) s = .next (s.setPc (if isZero (s.reg r) then op.toNat else s.pc + a.size)) :=
  (withOperand_ok h).trans (congrArg Host.Outcome.next (apply_ite s.setPc _ _ _).symm)

theorem exec_load_ok (h : resolve a s = .ok op) : exec (.load r a) s = .next ((s.setReg r op).advance a) :=
  (exec_load r a s).trans (writeSelected_ok h)

theorem exec_equalsZero_ok (h : resolve a s = .ok op) :
    exec (.equalsZero r a) s = .next ((s.setReg r (boolWord (isZero op))).advance a) :=
  (exec_equalsZero r a s).trans (writeSelected_ok h)

theorem exec_lessThanZero_ok (h : resolve a s = .ok op) :
    exec (.lessThanZero r a) s = .next ((s.setReg r (boolWord (signBit op))).advance a) :=
  (exec_lessThanZero r a s).trans (writeSelected_ok h)

/-- div writes the selected register and moves on, or raises a fault: that of resolution or DivideByZero (43_arithmetic
R115). -/
theorem exec_div_next (h : exec (.div r a) s = .next t) :
    (∃ v, t = (s.setReg r v).advance a) ∨ ∃ c, t = s.raise c := by
  rcases withOperand_next h with ⟨op, -, hk⟩ | ⟨ea, -, -, rfl⟩
  · split at hk <;> cases hk
    · exact .inr ⟨_, rfl⟩
    · exact .inl ⟨_, rfl⟩
  · exact .inr ⟨_, rfl⟩

/-- An instruction of the shape writeSelected writes the selected register and moves on, or raises a fault. -/
theorem writeSelected_writes_or_raises {f : Word → Word → Word} (h : writeSelected f r a s = .next t) :
    (∃ v, t = (s.setReg r v).advance a) ∨ ∃ c, t = s.raise c := by
  rcases writeSelected_next h with ⟨op, -, ht⟩ | ⟨ea, -, -, ht⟩
  · exact .inl ⟨_, ht⟩
  · exact .inr ⟨_, ht⟩

/-- An instruction that writes the selected register does so and moves on, or raises a fault. -/
theorem exec_registerWriter_next {o : Op}
    (ho : o ∈ [Op.load, .add, .sub, .mul, .div, .and, .or, .not, .equalsZero, .lessThanZero])
    (h : exec (Instr.ofOp o r a) s = .next t) : (∃ v, t = (s.setReg r v).advance a) ∨ ∃ c, t = s.raise c := by
  rcases registerWriter_shape r a s ho with rfl | ⟨f, hf⟩
  · exact exec_div_next h
  · exact writeSelected_writes_or_raises (hf.symm.trans h)

/-- The four control instructions (41_control) set pc, or stop the machine, or raise a fault. -/
theorem exec_control_next {o : Op} (ho : o ∈ [Op.nop, .halt, .jump, .jumpIfZero])
    (h : exec (Instr.ofOp o r a) s = .next t) :
    (∃ p, t = s.setPc p) ∨ (o = .halt ∧ t = (s.advance a).setStatus .halted) ∨ ∃ c, t = s.raise c := by
  cases hr : resolve a s with
  | error c =>
    cases (exec_ofOp_error o hr).symm.trans h
    exact .inr (.inr ⟨c, rfl⟩)
  | ok op =>
    simp only [List.mem_cons, List.not_mem_nil, or_false] at ho
    rcases ho with rfl | rfl | rfl | rfl
    · cases (exec_nop_ok hr).symm.trans h
      exact .inl ⟨_, rfl⟩
    · cases (exec_halt_ok hr).symm.trans h
      exact .inr (.inl ⟨rfl, rfl⟩)
    · cases (exec_jump_ok hr).symm.trans h
      exact .inl ⟨_, rfl⟩
    · cases (exec_jumpIfZero_ok hr).symm.trans h
      exact .inl ⟨_, rfl⟩

/-- What an instruction does to the status: nothing, or Halted by a halt, or Faulted (10_state R28). -/
theorem exec_status {i : Instr} (h : exec i s = .next t) :
    t.status = s.status ∨ (∃ r a, i = .halt r a) ∨ ∃ c, t = s.raise c := by
  rcases exec_next h with ⟨c, rfl⟩ | ⟨p, rfl⟩ | ⟨r, a, hi, -⟩ | ⟨r, v, p, rfl⟩ | ⟨r, ea, m, -, -, rfl⟩
  · exact .inr (.inr ⟨c, rfl⟩)
  · exact .inl rfl
  · exact .inr (.inl ⟨r, a, hi⟩)
  · exact .inl (by simp)
  · exact .inl rfl

end Answers

/-! ### The status (10_state R28) -/

/-- Settles O14: a stopped machine stays as it is, and from Running the status is kept, or Faulted, or the instruction
fetched was a halt. -/
theorem statusLeavesRunningOnce : Obligations.StatusLeavesRunningOnce := by
  intro s t h
  rcases step_next h with ⟨hs, rfl⟩ | ⟨hs, c, -, rfl⟩ | ⟨hs, i, hf, hx⟩
  · exact ⟨id, fun hr => absurd hr hs, fun _ => rfl⟩
  · exact ⟨fun _ => hs, fun _ hh => by simp at hh, fun hn => absurd hs hn⟩
  · refine ⟨fun _ => hs, fun _ hh => ?_, fun hn => absurd hs hn⟩
    rcases exec_status hx with hk | ⟨r, a, rfl⟩ | ⟨c, rfl⟩
    · simp [hk, hs] at hh
    · exact ⟨r, a, hf⟩
    · simp at hh

/-! ### Frames (10_state R23) -/

/-- Settles O47: such an instruction wrote the selected register and moved pc, or raised a fault. -/
theorem registerWritersFrame : Obligations.RegisterWritersFrame := by
  intro o ho r a s t h
  rcases exec_registerWriter_next ho h with ⟨v, rfl⟩ | ⟨c, rfl⟩
  · rw [State.advance_setReg]
    exact ⟨sameRegsBut_setReg (s.advance a) r v, sameMem_of_eq (by simp), .inl (by simp)⟩
  · exact ⟨fun r' _ => State.raise_reg s r' c, sameMem_of_eq rfl, .inr ⟨c, rfl⟩⟩

/-- Settles O48: such an instruction set pc, or halted, or raised a fault. -/
theorem controlFrame : Obligations.ControlFrame := by
  intro o ho r a s t h
  rcases exec_control_next ho h with ⟨p, rfl⟩ | ⟨hh, rfl⟩ | ⟨c, rfl⟩
  · exact ⟨fun r' => State.setPc_reg s r' p, sameMem_of_eq rfl, .inl (.inl rfl)⟩
  · exact ⟨fun r' => by simp, sameMem_of_eq rfl, .inr ⟨hh, rfl⟩⟩
  · exact ⟨fun r' => State.raise_reg s r' c, sameMem_of_eq rfl, .inl (.inr ⟨c, rfl⟩)⟩

/-! ### The selected register where it is not read (10_state R22) -/

section NotRead
variable {r : Reg} {a : Arg} {s t : State} {op : Word} {o : Op}

/-- nop, halt and jump carry another value of the selected register through to the next state. -/
theorem exec_setReg_of_control (v : Word) (hra : r ≠ .r0 ∨ a ≠ .acc) (ho : o ∈ [Op.nop, .halt, .jump])
    (hr : resolve a s = .ok op) (h : exec (Instr.ofOp o r a) s = .next t) :
    exec (Instr.ofOp o r a) (s.setReg r v) = .next (t.setReg r v) := by
  have hr' : resolve a (s.setReg r v) = .ok op := (resolve_setReg hra s v).trans hr
  simp only [List.mem_cons, List.not_mem_nil, or_false] at ho
  rcases ho with rfl | rfl | rfl
  · cases (exec_nop_ok hr).symm.trans h
    rw [← State.advance_setReg]
    exact exec_nop_ok hr'
  · cases (exec_halt_ok hr).symm.trans h
    rw [← State.setStatus_setReg, ← State.advance_setReg]
    exact exec_halt_ok hr'
  · cases (exec_jump_ok hr).symm.trans h
    rw [← State.setPc_setReg]
    exact exec_jump_ok hr'

/-- load, equalsZero and lessThanZero overwrite the selected register by what the operand alone gives. -/
theorem exec_setReg_of_overwrite (v : Word) (hra : r ≠ .r0 ∨ a ≠ .acc) (ho : o ∈ [Op.load, .equalsZero, .lessThanZero])
    (hr : resolve a s = .ok op) : exec (Instr.ofOp o r a) (s.setReg r v) = exec (Instr.ofOp o r a) s := by
  have hr' : resolve a (s.setReg r v) = .ok op := (resolve_setReg hra s v).trans hr
  simp only [List.mem_cons, List.not_mem_nil, or_false] at ho
  rcases ho with rfl | rfl | rfl
  · simp only [Instr.ofOp, exec_load_ok hr, exec_load_ok hr', State.setReg_setReg]
  · simp only [Instr.ofOp, exec_equalsZero_ok hr, exec_equalsZero_ok hr', State.setReg_setReg]
  · simp only [Instr.ofOp, exec_lessThanZero_ok hr, exec_lessThanZero_ok hr', State.setReg_setReg]

end NotRead

/-- Settles O51: with another value v in the register the next state is the same one with v written to it after nop, halt,
jump or a failed resolution, and the same one after load, equalsZero or lessThanZero. -/
theorem selectedRegisterNotRead : Obligations.SelectedRegisterNotRead := by
  intro o ho r a v s t hra h
  cases hr : resolve a s with
  | error c =>
    cases (exec_ofOp_error o hr).symm.trans h
    refine ⟨(s.raise c).setReg r v, ?_, by simp, by simp, by simp, sameRegsBut_setReg _ r v, ?_⟩
    · rw [← State.raise_setReg]
      exact exec_ofOp_error o ((resolve_setReg hra s v).trans hr)
    · rintro - ⟨op, hop⟩
      cases hop
  | ok op =>
    have hsplit : o ∈ [Op.nop, .halt, .jump] ∨ o ∈ [Op.load, .equalsZero, .lessThanZero] :=
      List.mem_append.mp ho
    rcases hsplit with hc | hw
    · refine ⟨t.setReg r v, exec_setReg_of_control v hra hc hr h, by simp, by simp, by simp,
        sameRegsBut_setReg t r v, ?_⟩
      rintro (rfl | rfl | rfl) <;> exact absurd hc (by decide)
    · exact ⟨t, (exec_setReg_of_overwrite v hra hw hr).trans h, rfl, rfl, rfl, sameRegsBut_refl t r, fun _ _ => rfl⟩

/-! ### The reset state (10_state R33) -/

/-- In Running there is no fault record to justify: the invariant is the canonical form of memory. -/
theorem State.inv_of_running {s : State} (hs : s.status = .running) : s.inv = s.mem.wf := by
  simp only [State.inv, hs, Bool.and_true]

/-- Settles O19: the memory of reset lists no cell, and its status is Running. -/
theorem resetMeetsInvariant : Obligations.ResetMeetsInvariant := by
  have hwf : State.reset.mem.wf = true := rfl
  exact ⟨(State.inv_of_running rfl).trans hwf, rfl, rfl⟩

end Sys2Proof.Machine
end

section
/-! PROOFS of the family 20_memory: what a step can do to memory, the bit-range accessors as big-endian numbers and as
single bits, the 2-byte write as a bit-range write, the fetch after a store, and the radix dumps of a memory. -/

namespace Sys2Proof.Machine

/-! ### What a step can do to memory (20_memory R36, R41) -/

/-- A 2-byte write that answers has its word inside memory. -/
theorem memWrite2_inRange {m m' : Memory} {a : Nat} {v : Word} (h : memWrite2 m a v = .ok m') : a + 2 ≤ m.size := by
  by_contra hb
  rw [memWrite2, if_pos (by omega)] at h
  cases h

/-- A 2-byte write keeps the length, also of a memory that is not canonical. -/
theorem memWrite2_size {m m' : Memory} {a : Nat} {v : Word} (h : memWrite2 m a v = .ok m') : m'.size = m.size := by
  cases (memWrite2_ok v (memWrite2_inRange h)).symm.trans h
  rfl

/-- An instruction leaves memory as it is, or is a direct store and writes one word. -/
theorem exec_mem {i : Instr} {s t : State} (h : exec i s = .next t) :
    t.mem = s.mem ∨
    ∃ r ea, i = .store r (.dir ea) ∧ memWrite2 s.mem ea.toNat (s.reg r) = .ok t.mem := by
  rcases exec_next h with ⟨c, rfl⟩ | ⟨p, rfl⟩ | ⟨r, a, -, rfl⟩ | ⟨r, v, p, rfl⟩ | ⟨r, ea, m, hi, hm, rfl⟩
  · exact .inl rfl
  · exact .inl rfl
  · exact .inl rfl
  · exact .inl (by simp)
  · exact .inr ⟨r, ea, hi, hm⟩

/-- A step leaves memory as it is, or fetched a direct store and writes one word. -/
theorem step_mem {s t : State} (h : step s = .next t) :
    t.mem = s.mem ∨
    ∃ r ea, s.status = .running ∧ fetchInstr s = .ok (.store r (.dir ea)) ∧
      memWrite2 s.mem ea.toNat (s.reg r) = .ok t.mem := by
  rcases step_next h with ⟨-, rfl⟩ | ⟨-, c, -, rfl⟩ | ⟨hs, i, hf, hx⟩
  · exact .inl rfl
  · exact .inl rfl
  · rcases exec_mem hx with hm | ⟨r, ea, rfl, hm⟩
    · exact .inl hm
    · exact .inr ⟨r, ea, hs, hf, hm⟩

/-- Settles O16: the one change a step can make to memory is a 2-byte write, which keeps the length. -/
theorem memoryNeverGrows : Obligations.MemoryNeverGrows := by
  refine ⟨fun memInit a b c => Memory.ofBytes_size memInit, fun s t h => ?_, rfl⟩
  rcases step_mem h with hm | ⟨r, ea, -, -, hm⟩
  · rw [hm]
  · exact memWrite2_size hm

/-- Settles O17: of the two things a step can do to memory, the one that changes it is a fetched direct store. -/
theorem onlyDirectStoreChangesMemory : Obligations.OnlyDirectStoreChangesMemory := by
  intro s t h hne
  rcases step_mem h with hm | ⟨r, ea, hs, hf, -⟩
  · exact absurd hm hne
  · exact ⟨r, ea, hf, hs⟩

/-! ### The bounds of a bit range (20_memory R38, R47) -/

section BitBounds
variable {m m' : Memory} {n : Nat}

theorem Memory.bitsInRange_eq_false {start length : Int}
    (h : start < 0 ∨ length < 0 ∨ 8 * (m.size : Int) < start + length) : m.bitsInRange start length = false := by
  simp only [Memory.bitsInRange, Bool.and_eq_false_iff, decide_eq_false_iff_not]
  omega

theorem Memory.bitsInRange_natCast {start length : Nat} :
    m.bitsInRange start length = true ↔ start + length ≤ 8 * m.size := by
  simp only [Memory.bitsInRange, Bool.and_eq_true, decide_eq_true_eq]
  omega

theorem getBits_error {start length : Int} (h : m.bitsInRange start length = false) :
    getBits m start length = .error .bounds := by
  simp [getBits, h]

theorem getBitsAsNumber_error {start length : Int} (h : m.bitsInRange start length = false) :
    getBitsAsNumber m start length = .error .bounds := by
  rw [getBitsAsNumber, getBits_error h]

theorem setBitsFromNumber_error {start length : Int} (h : m.bitsInRange start length = false) :
    setBitsFromNumber m start length n = .error .bounds := by
  simp [setBitsFromNumber, h]

theorem getBitsAsNumber_ok {start length : Nat} (h : start + length ≤ 8 * m.size) :
    getBitsAsNumber m start length = .ok (numberOfBits (m.bitRange start length)) := by
  simp [getBitsAsNumber, getBits, Memory.bitsInRange_natCast.mpr h]

/-- A bit-range write answers exactly for a range in memory and a number that fits it, and then writes the number's
binary digits (20_memory R39). -/
theorem setBitsFromNumber_eq_ok {start length : Nat} :
    setBitsFromNumber m start length n = .ok m' ↔
      start + length ≤ 8 * m.size ∧ n < 2 ^ length ∧ m.setBitRange start (bitsOfNumber n length) = m' := by
  rw [← Memory.bitsInRange_natCast, setBitsFromNumber]
  by_cases hr : m.bitsInRange start length = true <;> by_cases hn : n < 2 ^ length <;> simp [hr, hn]

end BitBounds

/-- Settles O25: each clause puts the range out of bounds, and all three accessors check the bounds first. -/
theorem bitRangeBounds : Obligations.BitRangeBounds := by
  intro m start length n h
  have hr := Memory.bitsInRange_eq_false h
  exact ⟨getBits_error hr, getBitsAsNumber_error hr, setBitsFromNumber_error hr⟩

/-! ### Lists of bits as numbers (20_memory R38, R39) -/

/-- A list read after bits that gave the number acc. -/
theorem foldl_bits (acc : Nat) (bits : List Bool) :
    bits.foldl (fun acc b => 2 * acc + b.toNat) acc = acc * 2 ^ bits.length + numberOfBits bits := by
  induction bits generalizing acc with
  | nil => simp [numberOfBits]
  | cons b bits ih =>
    have hcons : numberOfBits (b :: bits) = bits.foldl (fun acc b => 2 * acc + b.toNat) (2 * 0 + b.toNat) := rfl
    rw [List.foldl_cons, ih, hcons, ih, List.length_cons]
    ring

theorem numberOfBits_cons (b : Bool) (bits : List Bool) :
    numberOfBits (b :: bits) = b.toNat * 2 ^ bits.length + numberOfBits bits := by
  simpa [numberOfBits] using foldl_bits b.toNat bits

theorem numberOfBits_append (bits bits' : List Bool) :
    numberOfBits (bits ++ bits') = numberOfBits bits * 2 ^ bits'.length + numberOfBits bits' :=
  List.foldl_append.trans (foldl_bits (numberOfBits bits) bits')

/-- The last k binary digits of a number are its remainder modulo 2^k. -/
theorem numberOfBits_bitsOfNumber (n k : Nat) : numberOfBits (bitsOfNumber n k) = n % 2 ^ k := by
  induction k with
  | zero => simp [bitsOfNumber, numberOfBits, Nat.mod_one]
  | succ k ih =>
    rw [bitsOfNumber, numberOfBits_cons, ih, bitsOfNumber_length, Nat.mod_pow_succ, Nat.toNat_testBit]
    ring

/-! ### The bits of a memory (20_memory R35) -/

section Bits
variable {m n : Memory}

theorem Memory.bitAt_byte (m : Memory) (a : Nat) {j : Nat} (hj : j < 8) :
    m.bitAt (8 * a + j) = (m.get a).getMsbD j := by
  rw [Memory.bitAt, Nat.mul_add_div (by decide), Nat.div_eq_of_lt hj, Nat.mul_add_mod, Nat.mod_eq_of_lt hj,
    Nat.add_zero]

/-- A byte is known by its eight bits. -/
theorem Memory.get_eq_of_bitAt {a : Nat} (h : ∀ j < 8, m.bitAt (8 * a + j) = n.bitAt (8 * a + j)) :
    m.get a = n.get a := by
  refine BitVec.eq_of_getMsbD_eq fun j hj => ?_
  rw [← Memory.bitAt_byte m a hj, ← Memory.bitAt_byte n a hj, h j hj]

theorem Memory.bitRange_append (m : Memory) (start k l : Nat) :
    m.bitRange start (k + l) = m.bitRange start k ++ m.bitRange (start + k) l := by
  induction k generalizing start with
  | zero => simp [Memory.bitRange]
  | succ k ih => simp [Memory.bitRange, ih, Nat.succ_add_eq_add_succ]

/-- The last k bits of byte a, in address order, are the last k binary digits of its value. -/
theorem Memory.bitRange_byte_end (m : Memory) (a : Nat) {k : Nat} (hk : k ≤ 8) :
    m.bitRange (8 * a + (8 - k)) k = bitsOfNumber (m.get a).toNat k := by
  induction k with
  | zero => rfl
  | succ k ih =>
    have hbit : m.bitAt (8 * a + (8 - (k + 1))) = (m.get a).toNat.testBit k := by
      rw [Memory.bitAt_byte m a (by omega), BitVec.getMsbD_eq_getLsbD, BitVec.testBit_toNat,
        decide_eq_true (by omega), Bool.true_and, show 8 - 1 - (8 - (k + 1)) = k by omega]
    rw [Memory.bitRange, bitsOfNumber, hbit, show 8 * a + (8 - (k + 1)) + 1 = 8 * a + (8 - k) by omega,
      ih (by omega)]

/-- The number in the eight bits of a byte is the byte (20_memory R35, R40). -/
theorem numberOfBits_byte (m : Memory) (a : Nat) : numberOfBits (m.bitRange (8 * a) 8) = (m.get a).toNat := by
  have h := Memory.bitRange_byte_end m a (Nat.le_refl 8)
  rw [Nat.sub_self, Nat.add_zero] at h
  rw [h, numberOfBits_bitsOfNumber, Nat.mod_eq_of_lt (m.get a).isLt]

theorem Memory.word_toNat (m : Memory) (a : Nat) :
    (m.word a).toNat = (m.get a).toNat * 256 + (m.get (a + 1)).toNat :=
  wordOf_toNat _ _

/-- The number in the sixteen bits of a word is the word, its first byte high (20_memory R40, R42). -/
theorem numberOfBits_word (m : Memory) (a : Nat) : numberOfBits (m.bitRange (8 * a) 16) = (m.word a).toNat := by
  rw [Memory.bitRange_append m (8 * a) 8 8, numberOfBits_append, numberOfBits_byte, Memory.bitRange_length,
    show 8 * a + 8 = 8 * (a + 1) by omega, numberOfBits_byte, Memory.word_toNat,
    show 2 ^ 8 = 256 from rfl]

/-- Two memories with one word at a have the same byte at a and the same byte at a + 1. -/
theorem Memory.get_eq_of_word_eq {a : Nat} (h : m.word a = n.word a) :
    m.get a = n.get a ∧ m.get (a + 1) = n.get (a + 1) := by
  constructor
  · simpa [Memory.word] using congrArg hiByte h
  · simpa [Memory.word] using congrArg loByte h

end Bits

/-- Settles O21: the bit range of one byte is its number, and the bit range of a word is the word's. -/
theorem memReadIsBigEndianBitRead : Obligations.MemReadIsBigEndianBitRead := by
  intro m a
  refine ⟨fun h => ⟨memRead1_error h, getBitsAsNumber_error (Memory.bitsInRange_eq_false (by omega))⟩,
    fun h => ⟨memRead2_error h, getBitsAsNumber_error (Memory.bitsInRange_eq_false (by omega))⟩,
    fun h => ⟨memRead1_ok h, ?_⟩, fun h => ⟨m.word a, memRead2_ok h, Memory.word_toNat m a, ?_⟩⟩
  · rw [← numberOfBits_byte]
    exact getBitsAsNumber_ok (start := 8 * a) (length := 8) (by omega)
  · rw [← numberOfBits_word]
    exact getBitsAsNumber_ok (start := 8 * a) (length := 16) (by omega)

/-! ### Writing a bit range (20_memory R39) -/

theorem setMsb_getMsbD (b : Byte) (v : Bool) {j k : Nat} (hj : j < 8) (hk : k < 8) :
    (setMsb b j v).getMsbD k = if k = j then v else b.getMsbD k := by
  have mask : ∀ j < 8, ∀ k < 8, (0x80#8 >>> j).getMsbD k = decide (k = j) := by decide
  cases v with
  | false =>
    rw [setMsb, if_neg Bool.false_ne_true, BitVec.getMsbD_and, BitVec.getMsbD_not, mask j hj k hk]
    by_cases hkj : k = j <;> simp [hkj, hk, hj]
  | true =>
    rw [setMsb, if_pos rfl, BitVec.getMsbD_or, mask j hj k hk]
    by_cases hkj : k = j <;> simp [hkj]

section BitWrite
variable {m : Memory} {i : Nat} {bits : List Bool}

/-- Reading a bit after a bit write: the written bit at its address, every other bit as before. -/
theorem Memory.bitAt_setBitAt (hw : m.wf = true) (i k : Nat) (v : Bool) :
    (m.setBitAt i v).bitAt k = if k = i then v else m.bitAt k := by
  simp only [Memory.bitAt, Memory.setBitAt, Memory.get_set hw]
  by_cases hbyte : k / 8 = i / 8
  · rw [if_pos hbyte, setMsb_getMsbD _ _ (Nat.mod_lt _ (by decide)) (Nat.mod_lt _ (by decide)), hbyte]
    exact if_congr (by omega) rfl rfl
  · rw [if_neg hbyte, if_neg (fun hki => hbyte (congrArg (· / 8) hki))]

theorem Memory.setBitAt_wf (hw : m.wf = true) (h : i < 8 * m.size) (v : Bool) : (m.setBitAt i v).wf = true :=
  Memory.set_wf hw (by omega) _

/-- A bit-range write changes no bit before its range and none after it. -/
theorem Memory.bitAt_setBitRange_outside (hw : m.wf = true) (h : i + bits.length ≤ 8 * m.size) {k : Nat}
    (hk : k < i ∨ i + bits.length ≤ k) : (m.setBitRange i bits).bitAt k = m.bitAt k := by
  induction bits generalizing m i with
  | nil => rfl
  | cons b bits ih =>
    rw [List.length_cons] at h hk
    rw [Memory.setBitRange, ih (Memory.setBitAt_wf hw (by omega) b) (by rw [Memory.setBitAt_size]; omega) (by omega),
      Memory.bitAt_setBitAt hw, if_neg (by omega)]

/-- The range of a bit-range write reads back as the bits written. -/
theorem Memory.bitRange_setBitRange (hw : m.wf = true) (h : i + bits.length ≤ 8 * m.size) :
    (m.setBitRange i bits).bitRange i bits.length = bits := by
  induction bits generalizing m i with
  | nil => rfl
  | cons b bits ih =>
    rw [List.length_cons] at h
    have hw' := Memory.setBitAt_wf hw (i := i) (by omega) b
    have hle : i + 1 + bits.length ≤ 8 * (m.setBitAt i b).size := by rw [Memory.setBitAt_size]; omega
    rw [List.length_cons, Memory.bitRange, Memory.setBitRange, ih hw' hle,
      Memory.bitAt_setBitRange_outside hw' hle (.inl (Nat.lt_succ_self i)), Memory.bitAt_setBitAt hw, if_pos rfl]

end BitWrite

/-- A bit-range write that answers puts the number into the range. -/
theorem setBitsFromNumber_number {m m' : Memory} {start length n : Nat} (hw : m.wf = true)
    (h : setBitsFromNumber m start length n = .ok m') : numberOfBits (m'.bitRange start length) = n := by
  obtain ⟨hr, hn, rfl⟩ := setBitsFromNumber_eq_ok.mp h
  have hback := Memory.bitRange_setBitRange (bits := bitsOfNumber n length) hw (by rwa [bitsOfNumber_length])
  rw [bitsOfNumber_length] at hback
  rw [hback, numberOfBits_bitsOfNumber, Nat.mod_eq_of_lt hn]

/-- A bit-range write that answers changes no bit outside its range. -/
theorem setBitsFromNumber_bitAt {m m' : Memory} {start length n i : Nat} (hw : m.wf = true)
    (h : setBitsFromNumber m start length n = .ok m') (hi : i < start ∨ start + length ≤ i) :
    m'.bitAt i = m.bitAt i := by
  obtain ⟨hr, -, rfl⟩ := setBitsFromNumber_eq_ok.mp h
  exact Memory.bitAt_setBitRange_outside hw (by rwa [bitsOfNumber_length]) (by rwa [bitsOfNumber_length])

/-- Settles O24: the range holds the number's binary digits, and no bit write reaches outside it. -/
theorem bitWriteReadsBack : Obligations.BitWriteReadsBack := by
  intro m m' start length n hw h
  have hs := (setBitsFromNumber_wf hw h).2
  have hr := (setBitsFromNumber_eq_ok.mp h).1
  refine ⟨?_, hs, fun i hi => setBitsFromNumber_bitAt hw h hi⟩
  rw [getBitsAsNumber_ok (by rwa [hs]), setBitsFromNumber_number hw h]

/-! ### The 2-byte write (20_memory R41, R42) -/

section WordWrite
variable {m m' : Memory} {a : Nat} {v : Word}

theorem memWrite2_error (v : Word) (h : m.size < a + 2) : memWrite2 m a v = .error (.bounds a 2) := by
  rw [memWrite2, if_pos (by omega)]

/-- Reading a byte after a 2-byte write: v[15:8] at a, v[7:0] at a + 1, every other byte as before. -/
theorem memWrite2_get (hw : m.wf = true) (h : memWrite2 m a v = .ok m') (k : Nat) :
    m'.get k = if k = a + 1 then loByte v else if k = a then hiByte v else m.get k := by
  have hb := memWrite2_inRange h
  cases (memWrite2_ok v hb).symm.trans h
  rw [Memory.get_set (Memory.set_wf hw (by omega) _), Memory.get_set hw]

theorem memWrite2_get_first (hw : m.wf = true) (h : memWrite2 m a v = .ok m') : m'.get a = hiByte v := by
  rw [memWrite2_get hw h, if_neg (by omega), if_pos rfl]

theorem memWrite2_get_second (hw : m.wf = true) (h : memWrite2 m a v = .ok m') : m'.get (a + 1) = loByte v := by
  rw [memWrite2_get hw h, if_pos rfl]

theorem memWrite2_get_other (hw : m.wf = true) (h : memWrite2 m a v = .ok m') {k : Nat} (hk : k ≠ a)
    (hk' : k ≠ a + 1) : m'.get k = m.get k := by
  rw [memWrite2_get hw h, if_neg hk', if_neg hk]

theorem memWrite2_word (hw : m.wf = true) (h : memWrite2 m a v = .ok m') : m'.word a = v := by
  rw [Memory.word, memWrite2_get_first hw h, memWrite2_get_second hw h, wordOf_hiByte_loByte]

end WordWrite

/-- Settles O22: each byte of the written memory is known by `memWrite2_get`, and its two bytes at a make v again. -/
theorem memWriteStoresWord : Obligations.MemWriteStoresWord := by
  intro m a v hw
  refine ⟨memWrite2_error v, fun h => ?_⟩
  have hok := memWrite2_ok v h
  obtain ⟨hw', hs⟩ := memWrite2_wf hw hok
  refine ⟨_, hok, hw', hs, ?_, ?_, fun k => memWrite2_get_other hw hok, ?_⟩
  · rw [memWrite2_get_first hw hok, hiByte_toNat]
  · rw [memWrite2_get_second hw hok, loByte_toNat]
  · rw [memRead2_ok (by rwa [hs]), memWrite2_word hw hok]

/-- Settles O23: both writes leave v in the word at a and no other byte changed, and canonical memories that read alike
are equal. -/
theorem memWriteIsBitWrite : Obligations.MemWriteIsBitWrite := by
  intro m a v hw h
  have hbyte := memWrite2_ok v h
  have hbit : setBitsFromNumber m (8 * a : Nat) (16 : Nat) v.toNat = .ok _ :=
    setBitsFromNumber_eq_ok.mpr ⟨by omega, v.isLt, rfl⟩
  obtain ⟨hwByte, hsByte⟩ := memWrite2_wf hw hbyte
  obtain ⟨hwBit, hsBit⟩ := setBitsFromNumber_wf hw hbit
  refine ⟨_, hbyte, hbit.trans (congrArg Except.ok ?_)⟩
  refine Memory.ext_get hwBit hwByte (hsBit.trans hsByte.symm) fun k => ?_
  by_cases hk : k = a ∨ k = a + 1
  · have hword := (BitVec.eq_of_toNat_eq ((numberOfBits_word _ a).symm.trans (setBitsFromNumber_number hw hbit))).trans
      (memWrite2_word hw hbyte).symm
    obtain ⟨hfirst, hsecond⟩ := Memory.get_eq_of_word_eq hword
    rcases hk with rfl | rfl
    · exact hfirst
    · exact hsecond
  · rw [memWrite2_get_other hw hbyte (by omega) (by omega)]
    exact Memory.get_eq_of_bitAt fun j hj => setBitsFromNumber_bitAt hw hbit (by omega)

/-! ### The fetch after a store (20_memory R52) -/

theorem fetchInstr_of_decode {s : State} {i : Instr} {rest : List Byte}
    (h : decode (s.mem.window 3 s.pc) = .ok (i, rest)) : fetchInstr s = .ok i := by
  simp only [fetchInstr, h]

theorem step_running {s : State} {i : Instr} (hs : s.status = .running) (hf : fetchInstr s = .ok i) :
    step s = exec i s := by
  simp only [step, hs, hf]

/-- A direct store whose write answers completes: it commits the write and moves pc past itself (42_data_transfer
R110). -/
theorem exec_store_dir_ok {r : Reg} {ea : Word} {s : State} {m : Memory}
    (h : memWrite2 s.mem ea.toNat (s.reg r) = .ok m) :
    exec (.store r (.dir ea)) s = .next ((s.setMem m).advance (.dir ea)) := by
  rw [exec, execStore, withOperand_ok (resolve_dir_ok (memWrite2_inRange h))]
  simp only [h]

/-- A window sees only the length of memory and the bytes from its address on. -/
theorem Memory.window_congr {m m' : Memory} {n a : Nat} (hs : m'.size = m.size)
    (h : ∀ k, a ≤ k → m'.get k = m.get k) : m'.window n a = m.window n a := by
  induction n generalizing a with
  | zero => rfl
  | succ n ih => rw [Memory.window, Memory.window, hs, h a (Nat.le_refl a), ih fun k hk => h k (by omega)]

/-- The window at a written word: its two bytes, then what stood after them. -/
theorem memWrite2_window {m m' : Memory} {a : Nat} {v : Word} (hw : m.wf = true) (h : memWrite2 m a v = .ok m')
    (n : Nat) : m'.window (n + 2) a = hiByte v :: loByte v :: m.window n (a + 2) := by
  have hs := memWrite2_size h
  have hb := memWrite2_inRange h
  rw [Memory.window, if_pos (by omega), Memory.window, if_pos (by omega), memWrite2_get_first hw h,
    memWrite2_get_second hw h, Memory.window_congr hs fun k hk => memWrite2_get_other hw h (by omega) (by omega)]

/-- Settles O26: the store leaves pc at the word it wrote, so the next window starts with the stored bytes. -/
theorem storeOverNextInstructionIsFetched : Obligations.StoreOverNextInstructionIsFetched := by
  intro r ea s i rest hw hrun hpc hb hd
  have hok := memWrite2_ok (s.reg r) hb
  refine ⟨_, exec_store_dir_ok hok, step_running hrun (fetchInstr_of_decode (rest := rest) ?_)⟩
  have hpc' : s.pc + (Arg.dir ea).size = ea.toNat := hpc.symm
  rw [State.advance_mem, State.setMem_mem, State.advance_pc, State.setMem_pc, hpc', memWrite2_window hw hok, hd]

/-! ### The radix forms of a memory image (20_memory R54, R55) -/

/-- The value of a written digit is the digit, in either case of letters. -/
theorem Radix.digitValue_digitChar (r : Radix) (upper : Bool) :
    ∀ d < r.base, r.digitValue (digitChar upper d) = some d := by
  cases r <;> cases upper <;> decide

theorem Radix.digitValue_newline (r : Radix) : r.digitValue '\n' = none := by cases r <;> decide

theorem Radix.base_pos (r : Radix) : 0 < r.base := by cases r <;> decide

theorem Radix.digitsPerByte_pos (r : Radix) : 0 < r.digitsPerByte := by cases r <;> decide

theorem Radix.byte_lt_base_pow (r : Radix) (b : Byte) : b.toNat < r.base ^ r.digitsPerByte :=
  b.isLt.trans_le (by cases r <;> decide)

/-- The digits of a number before digit k, followed by digit k. -/
theorem Radix.leadingDigits_append_digit (r : Radix) (v k : Nat) :
    v / r.base ^ (k + 1) * r.base + v / r.base ^ k % r.base = v / r.base ^ k := by
  rw [Nat.pow_succ, ← Nat.div_div_eq_div_mul, Nat.div_add_mod']

theorem Radix.filterMap_byteDigits_succ (r : Radix) (upper : Bool) (v k : Nat) :
    (r.byteDigits upper v (k + 1)).filterMap r.digitValue =
      v / r.base ^ k % r.base :: (r.byteDigits upper v k).filterMap r.digitValue :=
  List.filterMap_cons_some (Radix.digitValue_digitChar r upper _ (Nat.mod_lt _ (Radix.base_pos r)))

/-- The last k + 1 digits of a byte, read after the digits before them, close the group with the byte. -/
theorem Radix.groups_byteDigits (r : Radix) (upper : Bool) (b : Byte) (ds : List Nat) {k count : Nat}
    (hk : count + (k + 1) = r.digitsPerByte) :
    r.groups (b.toNat / r.base ^ (k + 1)) count ((r.byteDigits upper b.toNat (k + 1)).filterMap r.digitValue ++ ds) =
      (r.groups 0 0 ds).map (b :: ·) := by
  induction k generalizing count with
  | zero =>
    rw [Radix.filterMap_byteDigits_succ, List.cons_append, Radix.groups, Radix.leadingDigits_append_digit, if_pos hk,
      Nat.pow_zero, Nat.div_one, if_pos b.isLt, Radix.byteDigits, List.filterMap_nil, List.nil_append]
    cases r.groups 0 0 ds with
    | none => rfl
    | some bs => simp
  | succ k ih =>
    rw [Radix.filterMap_byteDigits_succ, List.cons_append, Radix.groups, Radix.leadingDigits_append_digit, if_neg (by omega)]
    exact ih (by omega)

/-- All digits of a byte are one group, and it is the byte. -/
theorem Radix.groups_byte (r : Radix) (upper : Bool) (b : Byte) (ds : List Nat) :
    r.groups 0 0 ((r.byteDigits upper b.toNat r.digitsPerByte).filterMap r.digitValue ++ ds) =
      (r.groups 0 0 ds).map (b :: ·) := by
  obtain ⟨k, hk⟩ : ∃ k, r.digitsPerByte = k + 1 := Nat.exists_eq_succ_of_ne_zero (Radix.digitsPerByte_pos r).ne'
  have h := Radix.groups_byteDigits r upper b ds (k := k) (count := 0) (by omega)
  rwa [← hk, Nat.div_eq_of_lt (Radix.byte_lt_base_pow r b)] at h

/-- The digits of a dump are the digits of its bytes: the newlines between them are none. -/
theorem Radix.filterMap_writeBytes_cons (r : Radix) (upper : Bool) (b : Byte) (bs : List Byte) :
    (r.writeBytes upper (b :: bs)).filterMap r.digitValue =
      (r.byteDigits upper b.toNat r.digitsPerByte).filterMap r.digitValue ++
        (r.writeBytes upper bs).filterMap r.digitValue := by
  cases bs with
  | nil => simp [Radix.writeBytes]
  | cons b' bs =>
    rw [Radix.writeBytes, List.filterMap_append, List.filterMap_cons_none (Radix.digitValue_newline r)]
    exact List.cons_ne_nil b' bs

/-- The bytes of a radix dump are the bytes dumped, in either case of letters (20_memory R55). -/
theorem Radix.readBytes_writeBytes (r : Radix) (upper : Bool) (bs : List Byte) :
    r.readBytes (r.writeBytes upper bs) = some bs := by
  unfold Radix.readBytes
  induction bs with
  | nil => rfl
  | cons b bs ih => rw [Radix.filterMap_writeBytes_cons, Radix.groups_byte, ih, Option.map_some]

@[simp] theorem Memory.bytes_length (m : Memory) : m.bytes.length = m.size := by simp [Memory.bytes]

/-- A canonical memory is the one constructed from its bytes. -/
theorem Memory.ofBytes_bytes {m : Memory} (hw : m.wf = true) : Memory.ofBytes m.bytes = m := by
  refine Memory.ext_get (Memory.ofBytes_wf m.bytes) hw (Memory.bytes_length m) fun a => ?_
  rw [Memory.ofBytes_get]
  by_cases ha : a < m.size
  · simp [Memory.bytes, ha]
  · rw [Memory.get_past hw (by omega), List.getD_eq_default _ _ (by rw [Memory.bytes_length]; omega)]

/-- Settles O52: the dump reads back as the bytes of the memory, and they construct it again. -/
theorem dumpThenLoadIsIdentity : Obligations.DumpThenLoadIsIdentity := by
  intro r m hw
  rw [Memory.fromEncoded, Memory.toEncoded, Radix.readBytes_writeBytes, Option.map_some, Memory.ofBytes_bytes hw]

/-- Accepted digits, with those of the group already open, are whole groups (20_memory R54). -/
theorem Radix.groups_length {r : Radix} {acc count : Nat} {ds : List Nat} {bs : List Byte}
    (h : r.groups acc count ds = some bs) : count + ds.length = r.digitsPerByte * bs.length := by
  induction ds generalizing acc count bs with
  | nil =>
    simp only [Radix.groups] at h
    split at h <;> cases h
    simpa
  | cons d ds ih =>
    simp only [Radix.groups] at h
    split at h
    next hlast =>
      split at h
      · split at h <;> cases h
        next bs' htail =>
          have := ih htail
          simp only [List.length_cons, Nat.mul_add]
          omega
      · cases h
    next =>
      have := ih h
      simp only [List.length_cons]
      omega

/-- Settles O53: the loader starts with no open group, and what it constructs is canonical. -/
theorem loaderGroupsWholeBytes : Obligations.LoaderGroupsWholeBytes := by
  intro r text m h
  obtain ⟨bs, hbs, rfl⟩ := Option.map_eq_some_iff.mp h
  have hlen := Radix.groups_length hbs
  rw [Nat.zero_add] at hlen
  exact ⟨hlen, Memory.ofBytes_wf bs⟩

end Sys2Proof.Machine
end

section
/-! PROOFS of the family 30_encoding: the decoder and the encoder as inverses, the illegal first bytes, and the operand
of each mode. -/

namespace Sys2Proof.Machine

/-! ### The decoder on encoded bytes (30_encoding R57 to R59) -/

section Codec
variable {op : Op} {r : Reg} {a : Arg} {o : BitVec 4} {m : BitVec 2} {rest : List Byte}

theorem decode_encodeOp : decode (encodeOp op r a ++ rest) = .ok (Instr.ofOp op r a, rest) := by
  cases a <;> simp [encodeOp, decode, Arg.modeCode, Arg.payloadBytes]

theorem decode_reservedOpcode {x : BitVec 2} :
    decode (firstByteOf 0b1111#4 x m :: rest) = .ok (.reservedOpcode x m, rest) := by
  simp [decode, Op.ofCode_eq_none.mpr]

theorem exists_ofCode_of_ne (ho : o ≠ 0b1111#4) : ∃ op, Op.ofCode o = some op :=
  Option.ne_none_iff_exists'.mp (mt Op.ofCode_eq_none.mp ho)

theorem decode_reservedRegister (ho : o ≠ 0b1111#4) :
    decode (firstByteOf o 0b11#2 m :: rest) = .ok (.reservedRegister o m, rest) := by
  obtain ⟨op, hop⟩ := exists_ofCode_of_ne ho
  simp [decode, hop, Reg.ofCode_eq_none.mpr]

theorem decode_reservedMode (ho : o ≠ 0b1111#4) :
    decode (firstByteOf o r.code 0b11#2 :: rest) = .ok (.reservedMode o r, rest) := by
  obtain ⟨op, hop⟩ := exists_ofCode_of_ne ho
  simp [decode, hop]

end Codec

/-- Settles O1: an operation by its mode, and each reserved form by the field that makes its byte illegal. -/
theorem decodeEncodeRoundTrip : Obligations.DecodeEncodeRoundTrip := by
  intro i rest hwf
  cases i with
  | reservedOpcode x m => exact decode_reservedOpcode
  | reservedRegister o m => exact decode_reservedRegister (by simpa [Instr.wellFormed] using hwf)
  | reservedMode o r => exact decode_reservedMode (by simpa [Instr.wellFormed] using hwf)
  | _ => exact decode_encodeOp

/-! ### Legal and illegal first bytes (30_encoding R64) -/

section FirstByte
variable {op : Op} {r : Reg} {i : Instr} {b : Byte} {o : BitVec 4} {m : BitVec 2} {rest : List Byte}

theorem illegalFirstByte_firstByteOf {x : BitVec 2} :
    illegalFirstByte (firstByteOf o x m) = true ↔ o = 0b1111#4 ∨ x = 0b11#2 ∨ m = 0b11#2 := by
  rw [illegalFirstByte_iff, opcField_firstByteOf, regField_firstByteOf, modeField_firstByteOf]

/-- An illegal first byte is the whole code of a well-formed instruction, which raises DecodeError of it. -/
theorem exists_encode_of_illegal (hb : illegalFirstByte b = true) :
    ∃ i : Instr, i.wellFormed = true ∧ encode i = [b] ∧ i.size = 1 ∧ ∀ s, exec i s = .next (s.raise (.decode b)) := by
  obtain ⟨o, x, m, rfl⟩ : ∃ o x m, b = firstByteOf o x m := ⟨_, _, _, (firstByteOf_fields b).symm⟩
  by_cases ho : o = 0b1111#4
  · cases ho
    exact ⟨.reservedOpcode x m, rfl, rfl, rfl, fun _ => rfl⟩
  · cases hr : Reg.ofCode x with
    | none =>
      cases Reg.ofCode_eq_none.mp hr
      exact ⟨.reservedRegister o m, bne_iff_ne.mpr ho, rfl, rfl, fun _ => rfl⟩
    | some r =>
      have hx : x ≠ 0b11#2 := fun h => by simp [Reg.ofCode_eq_none.mpr h] at hr
      cases Reg.code_of_ofCode hr
      cases ((illegalFirstByte_firstByteOf.mp hb).resolve_left ho).resolve_left hx
      exact ⟨.reservedMode o r, bne_iff_ne.mpr ho, rfl, rfl, fun _ => rfl⟩

theorem exists_fields_of_legal (hb : illegalFirstByte b = false) :
    ∃ (op : Op) (r : Reg) (m : BitVec 2), b = firstByteOf op.code r.code m ∧ m ≠ 0b11#2 := by
  obtain ⟨o, x, m, rfl⟩ : ∃ o x m, b = firstByteOf o x m := ⟨_, _, _, (firstByteOf_fields b).symm⟩
  have hlegal := mt illegalFirstByte_firstByteOf.mpr (Bool.not_eq_true _ ▸ hb)
  simp only [not_or] at hlegal
  obtain ⟨ho, hx, hm⟩ := hlegal
  obtain ⟨op, hop⟩ := exists_ofCode_of_ne ho
  obtain ⟨r, hr⟩ := Option.ne_none_iff_exists'.mp (mt Reg.ofCode_eq_none.mp hx)
  exact ⟨op, r, m, by rw [Op.code_of_ofCode hop, Reg.code_of_ofCode hr], hm⟩

/-- In mode 01 and 10 the decoder answers only when two bytes follow the first. -/
theorem exists_payload_of_decode {tail : List Byte} (hm : m = 0b01#2 ∨ m = 0b10#2)
    (h : decode (firstByteOf op.code r.code m :: tail) = .ok (i, rest)) : ∃ hi lo rest', tail = hi :: lo :: rest' := by
  match tail with
  | hi :: lo :: rest' => exact ⟨hi, lo, rest', rfl⟩
  | [] | [_] => rcases hm with rfl | rfl <;> simp [decode] at h

/-- What is read at a legal first byte is an operation, and its encoding is what was read. -/
theorem exists_encodeOp_of_decode {tail : List Byte} (hb : illegalFirstByte b = false)
    (h : decode (b :: tail) = .ok (i, rest)) :
    ∃ op r a, i = Instr.ofOp op r a ∧ encodeOp op r a ++ rest = b :: tail := by
  have modes : ∀ m : BitVec 2, m ≠ 0b11#2 → m = 0b00#2 ∨ m = 0b01#2 ∨ m = 0b10#2 := by decide
  obtain ⟨op, r, m, rfl, hm⟩ := exists_fields_of_legal hb
  suffices hbytes : ∃ a rest', encodeOp op r a ++ rest' = firstByteOf op.code r.code m :: tail by
    obtain ⟨a, rest', hbytes⟩ := hbytes
    rw [← hbytes, decode_encodeOp] at h
    cases h
    exact ⟨op, r, a, rfl, hbytes⟩
  rcases modes m hm with rfl | hm
  · exact ⟨.acc, tail, rfl⟩
  · obtain ⟨hi, lo, rest', rfl⟩ := exists_payload_of_decode hm h
    rcases hm with rfl | rfl
    · exact ⟨.imm (wordOf hi lo), rest', by simp [encodeOp, Arg.modeCode, Arg.payloadBytes]⟩
    · exact ⟨.dir (wordOf hi lo), rest', by simp [encodeOp, Arg.modeCode, Arg.payloadBytes]⟩

/-- An illegal first byte decodes, whatever follows it, to an instruction of one byte that raises DecodeError of it. -/
theorem exists_decode_of_illegal (hb : illegalFirstByte b = true) :
    ∃ i : Instr, i.wellFormed = true ∧ encode i = [b] ∧ i.size = 1 ∧ (∀ rest, decode (b :: rest) = .ok (i, rest)) ∧
      ∀ s, exec i s = .next (s.raise (.decode b)) := by
  obtain ⟨i, hwf, hbyte, hsize, hexec⟩ := exists_encode_of_illegal hb
  exact ⟨i, hwf, hbyte, hsize, fun rest => by simpa [hbyte] using decodeEncodeRoundTrip i rest hwf, hexec⟩

end FirstByte

/-- Settles O2: an illegal first byte is the whole code of what is read, and a legal one starts the code of an
operation. -/
theorem encodeDecodeRoundTrip : Obligations.EncodeDecodeRoundTrip := by
  intro bytes i rest h
  match bytes with
  | [] => cases h
  | b :: tail =>
    cases hb : illegalFirstByte b with
    | true =>
      obtain ⟨i', hwf, hbyte, -, hdec, -⟩ := exists_decode_of_illegal hb
      cases (hdec tail).symm.trans h
      exact ⟨hwf, by rw [hbyte, List.singleton_append]⟩
    | false =>
      obtain ⟨op, r, a, rfl, hbytes⟩ := exists_encodeOp_of_decode hb h
      exact ⟨wellFormed_ofOp op r a, by rw [encode_ofOp, hbytes]⟩

/-- In reset no operation on the accumulator raises DecodeError: the one fault among them is the DivideByZero of div. -/
theorem exec_ofOp_acc_reset_ne_decodeError (op : Op) (r : Reg) (b : Byte) :
    exec (Instr.ofOp op r .acc) State.reset ≠ .next (State.reset.raise (.decode b)) := by
  cases op <;> cases r <;> exact fun h => nomatch h

theorem illegalFirstByte_iff_bits (b : Byte) : illegalFirstByte b = true ↔
    (0xF0 ≤ b.toNat ∨ b.extractLsb' 2 2 = 3#2 ∨ b.extractLsb' 0 2 = 3#2) := by
  simp [illegalFirstByte, regField, modeField, or_assoc]

theorem arg_eq_acc_of_size {a : Arg} (h : a.size = 1) : a = .acc := by
  cases a with
  | acc => rfl
  | imm v => cases h
  | dir ea => cases h

/-- The numbers below n * k that p holds of, counted row by row: row hi holds the k numbers from hi * k on. -/
theorem countP_range_mul (p : Nat → Bool) (n k : Nat) : (List.range (n * k)).countP p =
    ((List.range n).map fun hi => (List.range k).countP fun lo => p (hi * k + lo)).sum := by
  induction n with
  | zero => simp
  | succ n ih => simp [Nat.succ_mul, List.range_add, List.range_succ, ih, List.countP_map, Function.comp_def]

/-- A count over all bytes is known by its sixteen rows, one for each value of the opcode field (30_encoding R64). -/
theorem countP_bytes {p : Nat → Bool} {total : Nat}
    (h : ((List.range 16).map fun hi => (List.range 16).countP fun lo => p (hi * 16 + lo)).sum = total) :
    (List.range 256).countP p = total :=
  (countP_range_mul p 16 16).trans h

/-- Settles O4: an illegal byte decodes to a reserved form, wherever it stands; a legal one that decodes alone decodes
to an operation on the accumulator, which in reset raises no DecodeError. -/
theorem illegalFirstBytes : Obligations.IllegalFirstBytes := by
  refine ⟨fun b rest => ?_, countP_bytes (by decide), countP_bytes (by decide), countP_bytes (by decide),
    countP_bytes (by decide), fun s hs hpc hb => ?_⟩
  · rw [← illegalFirstByte_iff_bits]
    constructor
    · rintro ⟨i, hsize, hdec, hexec⟩
      by_contra hb
      obtain ⟨op, r, a, rfl, -⟩ := exists_encodeOp_of_decode (Bool.eq_false_iff.mpr hb) hdec
      cases arg_eq_acc_of_size ((size_ofOp op r a).symm.trans hsize)
      exact exec_ofOp_acc_reset_ne_decodeError op r b (hexec State.reset)
    · intro hb
      obtain ⟨i, -, -, hsize, hdec, hexec⟩ := exists_decode_of_illegal hb
      exact ⟨i, hsize, hdec rest, hexec⟩
  · obtain ⟨i, -, -, -, hdec, hexec⟩ := exists_decode_of_illegal hb
    refine ⟨_, ?_, rfl, State.raise_pc s _⟩
    have hwin : s.mem.window 3 s.pc = s.mem.get s.pc :: s.mem.window 2 (s.pc + 1) := if_pos hpc
    rw [step_running hs (fetchInstr_of_decode ((congrArg decode hwin).trans (hdec _))), hexec]

/-- Settles O3: the six words, decoded. -/
theorem writtenWordsDecode : Obligations.WrittenWordsDecode := by
  unfold Obligations.WrittenWordsDecode
  decide

/-- Settles O44: each reserved pattern raises DecodeError of the byte it was read from. -/
theorem reservedPatternsRaiseDecodeError : Obligations.ReservedPatternsRaiseDecodeError :=
  fun _ _ _ _ _ => ⟨rfl, rfl, rfl⟩

/-! ### Operands (30_encoding R62) -/

/-- Settles O27: only the direct operand reads memory, and it reads the word at its address. -/
theorem operandOfEachMode : Obligations.OperandOfEachMode := by
  intro s v
  refine ⟨⟨resolve_acc s, rfl⟩, ⟨resolve_imm v s, rfl⟩, rfl, fun h => ?_, resolve_dir_error⟩
  exact ⟨_, resolve_dir_ok h, Memory.word_toNat s.mem v.toNat⟩

end Sys2Proof.Machine
end

section
/-! PROOFS of the family 30_encoding, the assembler: mnemonics, the label table, the image the passes make of a parsed
program, and the canonical forms the parser leads to. -/

namespace Sys2Proof.Machine

/-! ### Mnemonics (30_encoding R72) -/

theorem lowerCase_idem (c : Char) : lowerCase (lowerCase c) = lowerCase c := by
  by_cases h : 65 ≤ c.toNat ∧ c.toNat ≤ 90
  · have hvalid : (c.toNat + 32).isValidChar := .inl (by omega)
    have hlow : (lowerCase c).toNat = c.toNat + 32 := by
      rw [lowerCase, if_pos h, Char.ofNat, dif_pos hvalid]
      exact Char.toNat_ofNatAux hvalid
    exact if_neg (by omega)
  · rw [show lowerCase c = c from if_neg h, lowerCase, if_neg h]

/-- Settles O58: a mnemonic is looked up by its lower-case spelling, and lowering a letter again changes nothing. -/
theorem mnemonicsIgnoreCase : Obligations.MnemonicsIgnoreCase := by
  intro w w' h
  refine ⟨congrArg (spellings.lookup ·) h, congrArg (spellings.lookup ·) ?_⟩
  rw [List.map_map]
  exact List.map_congr_left fun c _ => lowerCase_idem c

/-! ### The label table (30_encoding R79, R80) -/

section Labels
variable {name : LabelName} {t t' : LabelTable} {addr x : Nat}

/-- A name in the table after the labels of one instruction is one of them, at its address, or was there before. -/
theorem lookup_addLabels {ns : List LabelName} (h : addLabels addr ns t = .ok t') (hx : t'.lookup name = some x) :
    (name ∈ ns ∧ x = addr) ∨ t.lookup name = some x := by
  induction ns generalizing t with
  | nil =>
    cases h
    exact .inr hx
  | cons n ns ih =>
    simp only [addLabels] at h
    split at h
    · cases h
    · rcases ih h with ⟨hmem, hxa⟩ | hlook
      · exact .inl ⟨List.mem_cons_of_mem n hmem, hxa⟩
      · by_cases hn : name = n
        · rw [hn, List.lookup_cons_self] at hlook
          exact .inl ⟨hn ▸ List.mem_cons_self, (Option.some.inj hlook).symm⟩
        · rw [List.lookup_cons, beq_eq_false_iff_ne.mpr hn] at hlook
          exact .inr hlook

theorem addressAfter_cons (it : Item) (items : List Item) :
    addressAfter (it :: items) = it.stmt.size + addressAfter items := by
  simp [addressAfter]

/-- A name in the table after the resolution pass is a label of some instruction, at that instruction's address, or was
there before. -/
theorem lookup_resolveLabels {items : List Item} (h : resolveLabels addr items t = .ok t')
    (hx : t'.lookup name = some x) :
    (∃ before it after, items = before ++ it :: after ∧ name ∈ it.labels ∧ x = addr + addressAfter before) ∨
      t.lookup name = some x := by
  induction items generalizing addr t with
  | nil =>
    cases h
    exact .inr hx
  | cons it items ih =>
    simp only [resolveLabels] at h
    split at h
    · next t₁ hadd =>
      rcases ih h with ⟨before, it', after, rfl, hmem, rfl⟩ | hlook
      · exact .inl ⟨it :: before, it', after, rfl, hmem, by rw [addressAfter_cons, Nat.add_assoc]⟩
      · rcases lookup_addLabels hadd hlook with ⟨hmem, rfl⟩ | hlook
        · exact .inl ⟨[], it, items, rfl, hmem, rfl⟩
        · exact .inr hlook
    · cases h

end Labels

/-! ### One argument and one instruction (30_encoding R81 to R87) -/

/-- The operand that the rewrite and the encoder make of an argument, with the label table t. -/
def resolvedArg (t : LabelTable) : SourceArg → Arg → Prop
  | .acc, a => a = .acc
  | .imm n, a => n < 65536 ∧ a = .imm (BitVec.ofNat 16 n)
  | .dir n, a => n < 65536 ∧ a = .dir (BitVec.ofNat 16 n)
  | .label name, a => ∃ addr, t.lookup name = some addr ∧ addr < 65536 ∧ a = .dir (BitVec.ofNat 16 addr)

section Passes
variable {t : LabelTable} {sa : SourceArg} {pa : PlainArg} {a : Arg} {o : Op} {r : Reg} {i : Instr} {n : Nat}

theorem encodeArg_imm (h : encodeArg (.imm n) = .ok a) : n < 65536 ∧ a = .imm (BitVec.ofNat 16 n) := by
  simp only [encodeArg] at h
  split at h <;> cases h
  exact ⟨‹_›, rfl⟩

theorem encodeArg_dir (h : encodeArg (.dir n) = .ok a) : n < 65536 ∧ a = .dir (BitVec.ofNat 16 n) := by
  simp only [encodeArg] at h
  split at h <;> cases h
  exact ⟨‹_›, rfl⟩

theorem resolvedArg_of_passes (hr : rewriteArg t sa = .ok pa) (he : encodeArg pa = .ok a) : resolvedArg t sa a := by
  cases sa with
  | acc => cases hr; cases he; rfl
  | imm n => cases hr; exact encodeArg_imm he
  | dir n => cases hr; exact encodeArg_dir he
  | label name =>
    simp only [rewriteArg] at hr
    split at hr <;> cases hr
    exact ⟨_, ‹_›, encodeArg_dir he⟩

/-- An argument takes as many bytes as the resolution pass counted for it (30_encoding R79). -/
theorem size_of_resolvedArg (h : resolvedArg t sa a) : a.size = (Stmt.op o r sa).size := by
  cases sa with
  | acc => cases h; rfl
  | imm n => obtain ⟨-, rfl⟩ := h; rfl
  | dir n => obtain ⟨-, rfl⟩ := h; rfl
  | label name => obtain ⟨addr, -, -, rfl⟩ := h; rfl

/-- An argument resolved with the table of the resolution pass has the operand the source gives it. -/
theorem assembledArg_of_resolvedArg {items : List Item} (ht : resolveLabels 0 items [] = .ok t)
    (h : resolvedArg t sa a) : assembledArg items sa a := by
  cases sa with
  | acc => exact h
  | imm n => exact h
  | dir n => exact h
  | label name =>
    obtain ⟨addr, hlook, hlt, rfl⟩ := h
    rcases lookup_resolveLabels ht hlook with ⟨before, it, after, hitems, hmem, rfl⟩ | hnil
    · rw [Nat.zero_add] at hlt ⊢
      exact ⟨before, it, after, hitems, hmem, hlt, rfl⟩
    · cases hnil

theorem instrOf_ok (h : instrOf o r pa = .ok i) :
    ∃ a, encodeArg pa = .ok a ∧ isImmediateStore o a = false ∧ i = Instr.ofOp o r a := by
  simp only [instrOf] at h
  split at h
  · next a ha =>
    split at h <;> cases h
    exact ⟨a, ha, Bool.eq_false_iff.mpr ‹_›, rfl⟩
  · cases h

/-- What the rewrite and the encoder make of one source instruction: its `mem` byte, or the bytes of its operation. -/
def stmtBytes (t : LabelTable) : Stmt SourceArg → List Byte → Prop
  | .mem n, chunk => n < 256 ∧ chunk = [BitVec.ofNat 8 n]
  | .op o r sa, chunk => ∃ a, resolvedArg t sa a ∧ isImmediateStore o a = false ∧ chunk = encodeOp o r a

theorem stmtBytes_of_passes {st : Stmt SourceArg} {st' : Stmt PlainArg} {chunk : List Byte}
    (hr : rewriteStmt t st = .ok st') (he : encodeStmt st' = .ok chunk) : stmtBytes t st chunk := by
  cases st with
  | mem n =>
    cases hr
    simp only [encodeStmt] at he
    split at he <;> cases he
    exact ⟨‹_›, rfl⟩
  | op o r sa =>
    simp only [rewriteStmt] at hr
    split at hr <;> cases hr
    next pa hpa =>
      simp only [encodeStmt] at he
      split at he <;> cases he
      next i hi =>
        obtain ⟨a, ha, hstore, rfl⟩ := instrOf_ok hi
        exact ⟨a, resolvedArg_of_passes hpa ha, hstore, encode_ofOp o r a⟩

/-- An instruction takes as many bytes as the resolution pass counted for it (30_encoding R79). -/
theorem length_of_stmtBytes {st : Stmt SourceArg} {chunk : List Byte} (h : stmtBytes t st chunk) :
    chunk.length = st.size := by
  cases st with
  | mem n => obtain ⟨-, rfl⟩ := h; rfl
  | op o r sa =>
    obtain ⟨a, ha, -, rfl⟩ := h
    rw [encodeOp_length, size_of_resolvedArg ha]

end Passes

/-! ### The image (30_encoding R85) -/

theorem mapAll_cons_ok {α β : Type} {f : α → Except AsmError β} {x : α} {xs : List α} {zs : List β}
    (h : mapAll f (x :: xs) = .ok zs) : ∃ y ys, f x = .ok y ∧ mapAll f xs = .ok ys ∧ zs = y :: ys := by
  simp only [mapAll] at h
  split at h
  · cases h
  · next y hy =>
    split at h <;> cases h
    exact ⟨y, _, hy, ‹_›, rfl⟩

/-- Two passes in a row answer, for each element, what the second makes of the first's answer. -/
theorem forall₂_of_mapAll_mapAll {α β γ : Type} {f : α → Except AsmError β} {g : β → Except AsmError γ} {xs : List α}
    {ys : List β} {zs : List γ} (hf : mapAll f xs = .ok ys) (hg : mapAll g ys = .ok zs) :
    List.Forall₂ (fun x z => ∃ y, f x = .ok y ∧ g y = .ok z) xs zs := by
  induction xs generalizing ys zs with
  | nil =>
    cases hf
    cases hg
    exact .nil
  | cons x xs ih =>
    obtain ⟨y, ys, hy, hys, rfl⟩ := mapAll_cons_ok hf
    obtain ⟨z, zs, hz, hzs, rfl⟩ := mapAll_cons_ok hg
    exact .cons ⟨y, hy, hz⟩ (ih hys hzs)

section Image
variable {t : LabelTable} {items before after : List Item} {it : Item} {image : List Byte} {chunks : List (List Byte)}

/-- An image is the concatenation of what each instruction becomes, with the table of the resolution pass. -/
theorem assembleItems_ok (h : assembleItems items = .ok image) :
    ∃ t chunks, resolveLabels 0 items [] = .ok t ∧
      List.Forall₂ (fun it chunk => stmtBytes t it.stmt chunk) items chunks ∧ image = chunks.flatten := by
  simp only [assembleItems] at h
  split at h
  · cases h
  · next t ht =>
    split at h
    · cases h
    · next stmts hstmts =>
      split at h <;> cases h
      next chunks hchunks =>
        refine ⟨t, chunks, ht, (forall₂_of_mapAll_mapAll hstmts hchunks).imp ?_, rfl⟩
        rintro it chunk ⟨st, hst, hchunk⟩
        exact stmtBytes_of_passes hst hchunk

theorem length_flatten_of_stmtBytes (h : List.Forall₂ (fun it chunk => stmtBytes t it.stmt chunk) items chunks) :
    chunks.flatten.length = addressAfter items := by
  induction h with
  | nil => rfl
  | cons hchunk _ ih => rw [List.flatten_cons, List.length_append, ih, length_of_stmtBytes hchunk, addressAfter_cons]

/-- At the address of an instruction stand its bytes, and after them what the later ones become. -/
theorem exists_chunk_of_append
    (h : List.Forall₂ (fun it chunk => stmtBytes t it.stmt chunk) (before ++ it :: after) chunks) :
    ∃ chunk, stmtBytes t it.stmt chunk ∧
      chunks.flatten.drop (addressAfter before) =
        chunk ++ chunks.flatten.drop (addressAfter before + it.stmt.size) := by
  induction before generalizing chunks with
  | nil =>
    obtain ⟨chunk, chunks, hchunk, -, rfl⟩ := List.forall₂_cons_left_iff.mp h
    exact ⟨chunk, hchunk, by simp [addressAfter, ← length_of_stmtBytes hchunk]⟩
  | cons first before ih =>
    obtain ⟨chunk₁, chunks, hchunk₁, hrest, rfl⟩ := List.forall₂_cons_left_iff.mp h
    obtain ⟨chunk, hchunk, hdrop⟩ := ih hrest
    refine ⟨chunk, hchunk, ?_⟩
    rw [addressAfter_cons, ← length_of_stmtBytes hchunk₁, Nat.add_assoc, List.flatten_cons,
      List.drop_length_add_append, List.drop_length_add_append, hdrop]

end Image

/-- Settles O54: at its address an instruction's bytes start the rest of the image, and the decoder reads them back. -/
theorem assembledImageHoldsTheProgram : Obligations.AssembledImageHoldsTheProgram := by
  intro items image h
  obtain ⟨t, chunks, ht, hchunks, rfl⟩ := assembleItems_ok h
  refine ⟨length_flatten_of_stmtBytes hchunks, fun before it after hitems => ?_⟩
  obtain ⟨chunk, hchunk, hdrop⟩ := exists_chunk_of_append (hitems ▸ hchunks)
  cases hst : it.stmt with
  | mem n =>
    obtain ⟨hn, rfl⟩ : n < 256 ∧ chunk = [BitVec.ofNat 8 n] := by rwa [hst] at hchunk
    refine ⟨hn, ?_⟩
    rw [← List.head?_drop, hdrop, List.singleton_append, List.head?_cons]
  | op o r sa =>
    obtain ⟨a, ha, hstore, rfl⟩ : stmtBytes t (.op o r sa) chunk := hst ▸ hchunk
    exact ⟨a, assembledArg_of_resolvedArg ht ha, hstore, by rw [hdrop, decode_encodeOp, hst]⟩

/-- Settles O56: every item of a program with an image has an operand in range that no immediate store has, or a byte in
range. -/
theorem assemblerRefusesBadOperands : Obligations.AssemblerRefusesBadOperands := by
  intro items image h it hit
  obtain ⟨before, after, hitems⟩ := List.append_of_mem hit
  have hitem := (assembledImageHoldsTheProgram items image h).2 before it after hitems
  refine ⟨fun r n hst => ?_, fun o r n hst => ?_, fun o r n hst => ?_, fun n hst => ?_⟩
  · rw [hst] at hitem
    obtain ⟨a, ⟨-, rfl⟩, hstore, -⟩ := hitem
    cases hstore
  · rw [hst] at hitem
    obtain ⟨a, ⟨hn, -⟩, -⟩ := hitem
    exact Nat.le_of_lt_succ hn
  · rw [hst] at hitem
    obtain ⟨a, ⟨hn, -⟩, -⟩ := hitem
    exact Nat.le_of_lt_succ hn
  · rw [hst] at hitem
    exact Nat.le_of_lt_succ hitem.1

/-! ### Canonical forms (30_encoding R60, R61, R72 to R74, R89) -/

/-- The statement has register 00 where its operation names none, and no argument where it takes none (30_encoding R60,
R61, R73). -/
def defaultFields : Stmt SourceArg → Prop
  | .mem _ => True
  | .op .nop r sa | .op .halt r sa => r = .r0 ∧ sa = .acc
  | .op .jump r _ => r = .r0
  | .op .not _ sa => sa = .acc
  | .op _ _ _ => True

/-- The shape is the one of its operation (30_encoding R73, R74). -/
def Shape.fits : Shape → Bool
  | .nullary o => o == .nop || o == .halt
  | .argument o => o == .jump
  | .register o => o == .not
  | .binary o => o != .nop && o != .halt && o != .jump && o != .not
  | .decimal => true

section Parser
variable {cs cs' w : List Char} {sh : Shape} {st : Stmt SourceArg} {it : Item} {items : List Item}

theorem Shape.fits_of_shapeOf (h : shapeOf w = some sh) : sh.fits = true := by
  have hall : ∀ p ∈ spellings, p.2.fits = true := by decide
  obtain ⟨before, after, hsp, -⟩ := List.lookup_eq_some_iff.mp h
  exact hall (w.map lowerCase, sh) (by rw [hsp]; exact List.mem_append_cons_self)

theorem defaultFields_of_binary {o : Op} (r : Reg) (sa : SourceArg) (ho : (Shape.binary o).fits = true) :
    defaultFields (.op o r sa) := by
  cases o with
  | nop | halt | jump | not => cases ho
  | _ => trivial

/-- What the parser reads after a mnemonic of a shape has the fields of the shape's operation. -/
theorem defaultFields_of_parseRest (hsh : sh.fits = true) (h : parseRest sh cs = some (st, cs')) :
    defaultFields st := by
  cases sh with
  | nullary o =>
    cases h
    rcases (by simpa [Shape.fits] using hsh : o = .nop ∨ o = .halt) with rfl | rfl
    · exact ⟨rfl, rfl⟩
    · exact ⟨rfl, rfl⟩
  | argument o =>
    cases (by simpa [Shape.fits] using hsh : o = .jump)
    simp only [parseRest] at h
    split at h <;> cases h
    rfl
  | register o =>
    cases (by simpa [Shape.fits] using hsh : o = .not)
    simp only [parseRest] at h
    split at h <;> cases h
    rfl
  | binary o =>
    simp only [parseRest] at h
    split at h
    · split at h <;> cases h
      exact defaultFields_of_binary _ _ hsh
    · cases h
  | decimal =>
    simp only [parseRest] at h
    split at h <;> cases h
    trivial

theorem defaultFields_of_parseStmt (h : parseStmt cs = some (st, cs')) : defaultFields st := by
  simp only [parseStmt] at h
  split at h
  · next sh hsh => exact defaultFields_of_parseRest (Shape.fits_of_shapeOf hsh) h
  · cases h

theorem defaultFields_of_parseItem (h : parseItem cs = some (it, cs')) : defaultFields it.stmt := by
  simp only [parseItem] at h
  split at h <;> cases h
  exact defaultFields_of_parseStmt ‹_›

theorem defaultFields_of_parseItems {fuel : Nat} (h : parseItems fuel cs = .ok items) :
    ∀ it ∈ items, defaultFields it.stmt := by
  induction fuel generalizing cs items with
  | zero => cases h
  | succ fuel ih =>
    simp only [parseItems] at h
    split at h
    · cases h
      exact fun it hit => absurd hit List.not_mem_nil
    · split at h
      · cases h
      · next first rest hfirst =>
        have hhead := defaultFields_of_parseItem hfirst
        split at h
        · cases h
          exact List.forall_mem_singleton.mpr hhead
        · split at h
          · cases h
          · split at h <;> cases h
            exact List.forall_mem_cons.mpr ⟨hhead, ih ‹_›⟩

end Parser

/-- An operation with the fields its mnemonic leaves at their defaults, and no immediate store, is a canonical form
(30_encoding R89). -/
theorem canonical_ofOp {t : LabelTable} {o : Op} {r : Reg} {sa : SourceArg} {a : Arg}
    (hst : defaultFields (.op o r sa)) (ha : resolvedArg t sa a) (hstore : isImmediateStore o a = false) :
    (Instr.ofOp o r a).canonical = true := by
  cases o with
  | nop | halt =>
    obtain ⟨rfl, rfl⟩ := hst
    cases ha
    rfl
  | jump =>
    cases hst
    rfl
  | not =>
    cases hst
    cases ha
    rfl
  | store =>
    cases a with
    | imm v => cases hstore
    | acc | dir ea => rfl
  | _ => rfl

/-- Settles O57: the parser leaves the fields that a mnemonic does not name at their defaults, and the encoder refuses
the immediate store. -/
theorem assemblerEmitsCanonicalForms : Obligations.AssemblerEmitsCanonicalForms := by
  intro text items h it hit o r sa hst t pa i hrewrite hinstr
  obtain ⟨a, ha, hstore, rfl⟩ := instrOf_ok hinstr
  have hfields := defaultFields_of_parseItems h it hit
  rw [hst] at hfields
  exact canonical_ofOp hfields (resolvedArg_of_passes hrewrite ha) hstore

end Sys2Proof.Machine
end

section
/-! PROOFS of the family 40_step_cycle: an operation raises a fault or completes with the pc of its rule, the fetch of
the bytes at pc, the order of the faults, the precise fault, and the driver as repeated steps. -/

namespace Sys2Proof.Machine

/-! ### What an operation answers when its operand resolves (40_step_cycle R94 to R96) -/

/-- Every instruction is an operation with its register and operand, or a reserved form, which raises a fault in every
state (30_encoding R64). -/
theorem eq_ofOp_or_raises (i : Instr) :
    (∃ o r a, i = Instr.ofOp o r a) ∨ ∃ c, ∀ s, exec i s = .next (s.raise c) := by
  cases i with
  | nop r a => exact .inl ⟨.nop, r, a, rfl⟩
  | halt r a => exact .inl ⟨.halt, r, a, rfl⟩
  | jump r a => exact .inl ⟨.jump, r, a, rfl⟩
  | jumpIfZero r a => exact .inl ⟨.jumpIfZero, r, a, rfl⟩
  | load r a => exact .inl ⟨.load, r, a, rfl⟩
  | store r a => exact .inl ⟨.store, r, a, rfl⟩
  | add r a => exact .inl ⟨.add, r, a, rfl⟩
  | sub r a => exact .inl ⟨.sub, r, a, rfl⟩
  | mul r a => exact .inl ⟨.mul, r, a, rfl⟩
  | div r a => exact .inl ⟨.div, r, a, rfl⟩
  | and r a => exact .inl ⟨.and, r, a, rfl⟩
  | or r a => exact .inl ⟨.or, r, a, rfl⟩
  | not r a => exact .inl ⟨.not, r, a, rfl⟩
  | equalsZero r a => exact .inl ⟨.equalsZero, r, a, rfl⟩
  | lessThanZero r a => exact .inl ⟨.lessThanZero, r, a, rfl⟩
  | reservedOpcode x m => exact .inr ⟨_, fun _ => rfl⟩
  | reservedRegister o m => exact .inr ⟨_, fun _ => rfl⟩
  | reservedMode o r => exact .inr ⟨_, fun _ => rfl⟩

/-- The pc after an operation that raises no fault (40_step_cycle R95). -/
def completionPc (o : Op) (r : Reg) (a : Arg) (op : Word) (s : State) : Nat :=
  match o with
  | .jump => op.toNat
  | .jumpIfZero => if s.reg r = 0#16 then op.toNat else s.pc + a.size
  | _ => s.pc + a.size

section Completion
variable {o : Op} {r : Reg} {a : Arg} {s : State} {op : Word}

theorem exec_store_imm (v : Word) : exec (.store r (.imm v)) s = .next (s.raise .encoding) := rfl

theorem exec_store_acc : exec (.store r .acc) s = .next ((s.setReg .r0 (s.reg r)).advance .acc) := rfl

theorem exec_div_zero (hr : resolve a s = .ok 0#16) : exec (.div r a) s = .next (s.raise .divideByZero) :=
  withOperand_ok hr

theorem exec_div_ok (hr : resolve a s = .ok op) (hop : op ≠ 0#16) :
    exec (.div r a) s = .next ((s.setReg r (BitVec.ofNat 16 ((s.reg r).toNat / op.toNat))).advance a) :=
  (withOperand_ok hr).trans (if_neg hop)

/-- An instruction that writes the selected register completes when its operand resolves, div when it is not 0. -/
theorem exec_registerWriter_ok (hr : resolve a s = .ok op)
    (ho : o ∈ [Op.load, .add, .sub, .mul, .div, .and, .or, .not, .equalsZero, .lessThanZero])
    (hdiv : o = .div → op ≠ 0#16) : ∃ v, exec (Instr.ofOp o r a) s = .next ((s.setReg r v).advance a) := by
  rcases registerWriter_shape r a s ho with rfl | ⟨f, hf⟩
  · exact ⟨_, exec_div_ok hr (hdiv rfl)⟩
  · exact ⟨_, hf.trans (writeSelected_ok hr)⟩

/-- A store completes when its operand resolves, except in immediate mode (42_data_transfer R110). -/
theorem exec_store_ok (hr : resolve a s = .ok op) (himm : ∀ v, a ≠ .imm v) :
    ∃ t, exec (.store r a) s = .next t ∧ t.pc = s.pc + a.size ∧ t.status = s.status := by
  cases a with
  | acc => exact ⟨_, exec_store_acc, by simp, by simp⟩
  | imm v => exact absurd rfl (himm v)
  | dir ea => exact ⟨_, exec_store_dir_ok (memWrite2_ok (s.reg r) (resolve_dir_inRange hr)), rfl, rfl⟩

/-- An operation whose operand resolves completes, but for the immediate store and the div of 0: pc is the one of its
rule and the status is kept, or Halted. -/
theorem exec_ofOp_completes (hr : resolve a s = .ok op) (hstore : o = .store → ∀ v, a ≠ .imm v)
    (hdiv : o = .div → op ≠ 0#16) :
    ∃ t, exec (Instr.ofOp o r a) s = .next t ∧ t.pc = completionPc o r a op s ∧
      (t.status = s.status ∨ t.status = .halted) := by
  cases o with
  | nop => exact ⟨_, exec_nop_ok hr, rfl, .inl rfl⟩
  | halt => exact ⟨_, exec_halt_ok hr, rfl, .inr rfl⟩
  | jump => exact ⟨_, exec_jump_ok hr, rfl, .inl rfl⟩
  | jumpIfZero => exact ⟨_, exec_jumpIfZero_ok hr, by simp [completionPc, isZero], .inl rfl⟩
  | store =>
    obtain ⟨t, ht, hpc, hst⟩ := exec_store_ok hr (hstore rfl)
    exact ⟨t, ht, hpc, .inl hst⟩
  | _ =>
    obtain ⟨v, hv⟩ := exec_registerWriter_ok (r := r) hr (by decide) hdiv
    exact ⟨_, hv, by simp [completionPc], .inl (by simp)⟩

end Completion

/-- Every operation raises a fault, or its operand resolves and it completes with the pc of its rule. -/
theorem exec_ofOp_raises_or_completes (o : Op) (r : Reg) (a : Arg) (s : State) :
    (∃ c, exec (Instr.ofOp o r a) s = .next (s.raise c)) ∨
    ∃ op t, resolve a s = .ok op ∧ exec (Instr.ofOp o r a) s = .next t ∧ t.pc = completionPc o r a op s := by
  cases hr : resolve a s with
  | error c => exact .inl ⟨c, exec_ofOp_error o hr⟩
  | ok op =>
    by_cases hstore : o = .store ∧ ∃ v, a = .imm v
    · obtain ⟨rfl, v, rfl⟩ := hstore
      exact .inl ⟨_, exec_store_imm v⟩
    · by_cases hdiv : o = .div ∧ op = 0#16
      · obtain ⟨rfl, rfl⟩ := hdiv
        exact .inl ⟨_, exec_div_zero hr⟩
      · obtain ⟨t, ht, hpc, -⟩ := exec_ofOp_completes (o := o) (r := r) hr
          (fun ho v ha => hstore ⟨ho, v, ha⟩) (fun ho hop => hdiv ⟨ho, hop⟩)
        exact .inr ⟨op, t, rfl, ht, hpc⟩

/-- Settles O15: a completed operation has the pc of its rule, and everything else an instruction answers is a fault. -/
theorem pcRule : Obligations.PcRule := by
  intro i s t h
  rcases eq_ofOp_or_raises i with ⟨o, r, a, rfl⟩ | ⟨c, hc⟩
  · rcases exec_ofOp_raises_or_completes o r a s with ⟨c, hc⟩ | ⟨op, t', hr, ht', hpc⟩
    · cases hc.symm.trans h
      exact .inl ⟨c, rfl⟩
    · cases ht'.symm.trans h
      refine .inr ?_
      cases o with
      | jump | jumpIfZero => exact ⟨op, hr, hpc⟩
      | _ => exact hpc
  · cases (hc s).symm.trans h
    exact .inl ⟨c, rfl⟩

/-- Settles O28: the operand of each operation is resolved first, and its address is past the end. -/
theorem directReadFaultsWhateverTheOperation : Obligations.DirectReadFaultsWhateverTheOperation :=
  fun o _ _ _ h => exec_ofOp_error o (resolve_dir_error h)

/-! ### The fetch of the bytes at pc (40_step_cycle R92 to R94, R101) -/

/-- Settles O5: what the bytes at pc decode to is what the step fetches and executes. -/
theorem stepRunsDecodedInstruction : Obligations.StepRunsDecodedInstruction :=
  fun _ _ _ hs hd => step_running hs (fetchInstr_of_decode hd)

/-- A window starts with the bytes that stand at its address, and goes on after them. -/
theorem Memory.window_eq_append {m : Memory} {a : Nat} {bs : List Byte} (hsize : a + bs.length ≤ m.size)
    (hbs : ∀ k, k < bs.length → m.get (a + k) = bs.getD k 0#8) (n : Nat) :
    m.window (bs.length + n) a = bs ++ m.window n (a + bs.length) := by
  induction bs generalizing a with
  | nil => rw [List.length_nil, Nat.zero_add, Nat.add_zero, List.nil_append]
  | cons b bs ih =>
    rw [List.length_cons] at hsize hbs ⊢
    have hhead : m.get a = b := hbs 0 (by omega)
    have htail := ih (a := a + 1) (by omega) fun k hk => by
      rw [Nat.add_assoc, Nat.add_comm 1 k]
      exact hbs (k + 1) (by omega)
    rw [show bs.length + 1 + n = bs.length + n + 1 by omega, Memory.window, if_pos (by omega), hhead, htail,
      List.cons_append, Nat.add_assoc, Nat.add_comm 1]

theorem encode_length_le (i : Instr) : (encode i).length ≤ 3 := by
  have size_le : ∀ a : Arg, a.size ≤ 3 := fun a => by cases a <;> simp [Arg.size]
  cases i with
  | reservedOpcode | reservedRegister | reservedMode => exact Nat.le_add_left 1 2
  | _ r a => exact (encodeOp_length _ r a).trans_le (size_le a)

/-- Settles O6: the window at pc starts with the encoding, and the decoder reads it back whatever follows. -/
theorem stepRunsEncodedBytesInMemory : Obligations.StepRunsEncodedBytesInMemory := by
  intro s i hs hwf hsize hbytes
  obtain ⟨n, hn⟩ := Nat.exists_eq_add_of_le (encode_length_le i)
  refine step_running hs (fetchInstr_of_decode (rest := s.mem.window n (s.pc + (encode i).length)) ?_)
  rw [hn, Memory.window_eq_append hsize hbytes n]
  exact decodeEncodeRoundTrip i _ hwf

/-- The operand that the mode field at pc and the two bytes after it give (30_encoding R61, R62). -/
def State.argAtPc (s : State) : Arg :=
  if modeField (s.mem.get s.pc) = 0b00#2 then .acc
  else if modeField (s.mem.get s.pc) = 0b01#2 then .imm (s.mem.word (s.pc + 1))
  else .dir (s.mem.word (s.pc + 1))

section Fetch
variable {s : State}

theorem fetchInstr_of_pc_pastEnd (h : s.mem.size < s.pc + 1) : fetchInstr s = .error (.bounds s.pc 1) := by
  rw [fetchInstr_eq, if_pos h]

/-- At a legal first byte the fetch reads its operation, with the operand of its mode, or finds no room for the
payload. -/
theorem exists_fetchInstr_of_legal (hpc : s.pc + 1 ≤ s.mem.size) (hb : illegalFirstByte (s.mem.get s.pc) = false) :
    ∃ o r, opcField (s.mem.get s.pc) = Op.code o ∧ fetchInstr s =
      if modeField (s.mem.get s.pc) ≠ 0b00#2 ∧ s.mem.size < s.pc + 3 then .error (.bounds (s.pc + 1) 2)
      else .ok (Instr.ofOp o r s.argAtPc) := by
  obtain ⟨o, r, m, hbyte, hm⟩ := exists_fields_of_legal hb
  refine ⟨o, r, by rw [hbyte, opcField_firstByteOf], ?_⟩
  rw [fetchInstr_eq, if_neg (by omega), State.argAtPc, hbyte]
  simp only [opcField_firstByteOf, regField_firstByteOf, modeField_firstByteOf, Op.ofCode_code, Reg.ofCode_code,
    if_neg hm]
  by_cases h0 : m = 0b00#2
  · simp [h0]
  · by_cases h1 : m = 0b01#2 <;> simp [h0, h1]

theorem step_of_fetch_error {c : Cause} (hs : s.status = .running) (hf : fetchInstr s = .error c) :
    step s = .next (s.raise c) := by
  simp only [step, hs, hf]

end Fetch

/-! ### The order of the faults (40_step_cycle R100) -/

section FaultOrder
variable {s : State}

/-- The operand at pc resolves to the value its mode gives, unless it is a direct one past the end. -/
theorem resolve_argAtPc (hb : illegalFirstByte (s.mem.get s.pc) = false)
    (hdir : ¬ (modeField (s.mem.get s.pc) = 0b10#2 ∧ s.mem.size < (s.mem.word (s.pc + 1)).toNat + 2)) :
    resolve s.argAtPc s = .ok (if modeField (s.mem.get s.pc) = 0b00#2 then s.r0
      else if modeField (s.mem.get s.pc) = 0b01#2 then s.mem.word (s.pc + 1)
      else s.mem.word (s.mem.word (s.pc + 1)).toNat) := by
  have modes : ∀ m : BitVec 2, m ≠ 0b00#2 → m ≠ 0b01#2 → m ≠ 0b11#2 → m = 0b10#2 := by decide
  have h3 : modeField (s.mem.get s.pc) ≠ 0b11#2 := fun h =>
    Bool.eq_false_iff.mp hb ((illegalFirstByte_iff _).mpr (.inr (.inr h)))
  unfold State.argAtPc
  split_ifs with h0 h1
  · rfl
  · rfl
  · exact resolve_dir_ok (Nat.le_of_not_lt fun hlt => hdir ⟨modes _ h0 h1 h3, hlt⟩)

theorem argAtPc_of_mode_imm (h : modeField (s.mem.get s.pc) = 0b01#2) : s.argAtPc = .imm (s.mem.word (s.pc + 1)) := by
  simp [State.argAtPc, h]

theorem argAtPc_of_mode_dir (h : modeField (s.mem.get s.pc) = 0b10#2) : s.argAtPc = .dir (s.mem.word (s.pc + 1)) := by
  simp [State.argAtPc, h]

theorem mode_of_argAtPc_imm {v : Word} (h : s.argAtPc = .imm v) : modeField (s.mem.get s.pc) = 0b01#2 := by
  unfold State.argAtPc at h
  split_ifs at h
  assumption

theorem opCode_injective : Function.Injective Op.code :=
  fun o o' h => Option.some.inj (by rw [← Op.ofCode_code o, h, Op.ofCode_code])

end FaultOrder

/-- Settles O11: the fetch raises the first three faults, a resolution the fourth, the immediate store and the div of 0
the last two, and every other operation completes. -/
theorem firstFaultInOrder : Obligations.FirstFaultInOrder := by
  intro s hs b w op
  split
  next hpc => exact step_of_fetch_error hs (fetchInstr_of_pc_pastEnd hpc)
  next hpc =>
  split
  next hb =>
    obtain ⟨-, -, -, -, -, hstep⟩ := illegalFirstBytes
    obtain ⟨t, ht, rfl, -⟩ := hstep s hs (by omega) hb
    exact ht
  next hb =>
  have hlegal : illegalFirstByte b = false := Bool.eq_false_iff.mpr hb
  obtain ⟨o, r, hcode, hfetch⟩ := exists_fetchInstr_of_legal (by omega) hlegal
  split
  next hpay => exact step_of_fetch_error hs (hfetch.trans (if_pos hpay))
  next hpay =>
  rw [step_running hs (hfetch.trans (if_neg hpay))]
  split
  next hdir =>
    obtain ⟨hmode, hlt⟩ := hdir
    exact exec_ofOp_error o (argAtPc_of_mode_dir hmode ▸ resolve_dir_error hlt)
  next hdir =>
  have hr : resolve s.argAtPc s = .ok op := resolve_argAtPc hlegal hdir
  split
  next hstore =>
    obtain ⟨hopc, hmode⟩ := hstore
    cases opCode_injective (a₂ := .store) (hcode.symm.trans hopc)
    rw [argAtPc_of_mode_imm hmode]
    exact exec_store_imm w
  next hstore =>
  split
  next hdiv =>
    obtain ⟨hopc, hop⟩ := hdiv
    cases opCode_injective (a₂ := .div) (hcode.symm.trans hopc)
    exact exec_div_zero (hop ▸ hr)
  next hdiv =>
  obtain ⟨t, ht, -, hst⟩ := exec_ofOp_completes (o := o) (r := r) hr
    (fun ho v ha => hstore ⟨hcode.trans (congrArg Op.code ho), mode_of_argAtPc_imm ha⟩)
    (fun ho hop => hdiv ⟨hcode.trans (congrArg Op.code ho), hop⟩)
  exact ⟨t, ht, hst.imp_left (·.trans hs)⟩

/-! ### The precise fault (40_step_cycle R97) -/

section Precise
variable {i : Instr} {s t : State} {f : FaultRecord}

/-- From Running an instruction ends Faulted only by raising a fault. -/
theorem exists_raise_of_exec_faulted (hs : s.status = .running) (h : exec i s = .next t)
    (ht : t.status = .faulted f) : ∃ c, t = s.raise c := by
  rcases exec_next h with hc | ⟨p, rfl⟩ | ⟨r, a, -, rfl⟩ | ⟨r, v, p, rfl⟩ | ⟨r, ea, m, -, -, rfl⟩
  · exact hc
  all_goals simp [hs] at ht

theorem exists_raise_of_step_faulted (hs : s.status = .running) (h : step s = .next t)
    (ht : t.status = .faulted f) : ∃ c, t = s.raise c := by
  rcases step_next h with ⟨hn, -⟩ | ⟨-, c, -, hc⟩ | ⟨-, i, -, hx⟩
  · exact absurd hs hn
  · exact ⟨c, hc⟩
  · exact exists_raise_of_exec_faulted hs hx ht

end Precise

/-- Settles O13: raising a fault changes the status alone, to the record of what was raised at pc. -/
theorem faultsArePrecise : Obligations.FaultsArePrecise := by
  intro s t f hs h ht
  obtain ⟨c, rfl⟩ := exists_raise_of_step_faulted hs h ht
  exact ⟨rfl, rfl, rfl, rfl, rfl, c, (Status.faulted.inj ht).symm⟩

/-! ### Calls of step and the driver (40_step_cycle R91, R104; 60_exceptions R139) -/

theorem step_stopped {s : State} (hs : s.status ≠ .running) : step s = .next s := by
  cases hst : s.status with
  | running => exact absurd hst hs
  | halted | faulted f => simp only [step, hst]

theorem stepState_of_next {s t : State} (h : step s = .next t) : stepState s = t := by
  simp only [stepState, h]

/-- Settles O8: the call answers the same state, whose status it reports. -/
theorem stoppedStepChangesNothing : Obligations.StoppedStepChangesNothing :=
  fun _ hs => ⟨step_stopped hs, congrArg State.status (stepState_of_next (step_stopped hs))⟩

theorem exists_exec_eq_next (i : Instr) (s : State) : ∃ t, exec i s = .next t := by
  rcases eq_ofOp_or_raises i with ⟨o, r, a, rfl⟩ | ⟨c, hc⟩
  · rcases exec_ofOp_raises_or_completes o r a s with ⟨c, hc⟩ | ⟨op, t, -, ht, -⟩
    · exact ⟨_, hc⟩
    · exact ⟨t, ht⟩
  · exact ⟨_, hc s⟩

/-- A call of step answers a next state, whatever the state (logs 1 and 5). -/
theorem step_eq_next_stepState (s : State) : step s = .next (stepState s) := by
  suffices h : ∃ t, step s = .next t by
    obtain ⟨t, ht⟩ := h
    rw [ht, stepState_of_next ht]
  by_cases hs : s.status = .running
  · cases hf : fetchInstr s with
    | ok i => rw [step_running hs hf]; exact exists_exec_eq_next i s
    | error c => exact ⟨_, step_of_fetch_error hs hf⟩
  · exact ⟨s, step_stopped hs⟩

theorem runBudget_stopped {s : State} (hs : s.status ≠ .running) (n : Nat) : runBudget n s = s := by
  cases n with
  | zero => rfl
  | succ n => exact if_neg hs

/-- The driver may make its next call of step also when the machine has stopped: the call changes nothing. -/
theorem runBudget_succ (n : Nat) (s : State) : runBudget (n + 1) s = runBudget n (stepState s) := by
  by_cases hs : s.status = .running
  · exact if_pos hs
  · rw [stepState_of_next (step_stopped hs), runBudget_stopped hs, runBudget_stopped hs]

theorem core_run_succ {s t : State} (h : step s = .next t) (n : Nat) :
    Host.Core.run core (n + 1) s = Host.Core.run core n t := by
  have hcore : core.step s = .next t := h
  simp only [Host.Core.run, hcore]

/-- Settles O10: each call is a step of the driver, and after a stop neither changes the state. -/
theorem driverEqualsRepeatedSteps : Obligations.DriverEqualsRepeatedSteps := by
  intro n s
  induction n generalizing s with
  | zero => rfl
  | succ n ih => rw [core_run_succ (step_eq_next_stepState s), ih, runBudget_succ]

end Sys2Proof.Machine
end

section
/-! PROOFS of the family 41_control: the parts every operation's rule shares (its encoding and the fault of a failed
resolution), and the next state of nop, halt, jump and jumpIfZero. -/

namespace Sys2Proof.Machine

/-! ### What the rule of every operation states of its encoding and faults (30_encoding R58, 40_step_cycle R94) -/

theorem encodedAs_ofOp (o : Op) : encodedAs (Instr.ofOp o) o.code :=
  fun r a => congrArg List.head? (encode_ofOp o r a)

theorem raisesResolution_ofOp (o : Op) : raisesResolution (Instr.ofOp o) := fun _ _ _ _ => exec_ofOp_error o

/-- Of the rule of a control instruction only its completion is its own. -/
theorem controlRule_ofOp {o : Op} {g : Reg → Arg → Word → State → State}
    (h : ∀ r a s op, resolve a s = .ok op → exec (Instr.ofOp o r a) s = .next (g r a op s)) :
    controlRule (Instr.ofOp o) o.code g :=
  ⟨encodedAs_ofOp o, raisesResolution_ofOp o, h⟩

theorem isZero_iff_toNat (v : Word) : isZero v = true ↔ v.toNat = 0 :=
  beq_iff_eq.trans BitVec.toNat_inj.symm

/-! ### The control instructions (41_control R105 to R108) -/

/-- Settles O32: the test for 0 is the one on the register's value, and chooses between the two pcs. -/
theorem jumpIfZeroTestsSelected : Obligations.JumpIfZeroTestsSelected := by
  refine controlRule_ofOp (o := .jumpIfZero) fun r a s op hr => (exec_jumpIfZero_ok hr).trans ?_
  simp only [isZero_iff_toNat, State.setPc]

/-- Settles O29: the operand is resolved and ignored, and pc moves past the instruction. -/
theorem nopOnlyAdvancesPc : Obligations.NopOnlyAdvancesPc :=
  controlRule_ofOp (o := .nop) fun _ _ _ _ => exec_nop_ok

/-- Settles O30: pc moves past the halt, and the status becomes Halted. -/
theorem haltStopsAfterItself : Obligations.HaltStopsAfterItself :=
  controlRule_ofOp (o := .halt) fun _ _ _ _ => exec_halt_ok

/-- Settles O31: the resolved operand, in every mode, is the next pc. -/
theorem jumpSetsPcToOperand : Obligations.JumpSetsPcToOperand :=
  controlRule_ofOp (o := .jump) fun _ _ _ _ => exec_jump_ok

end Sys2Proof.Machine
end

section
/-! PROOFS of the family 42_data_transfer: the rule of an instruction that writes the selected register, load among
them, and what store does and leaves unchanged in each mode. -/

namespace Sys2Proof.Machine

/-! ### Register writes that complete (10_state R23, 40_step_cycle R96) -/

/-- The completion of a register write, pc past the instruction, changes nothing else. -/
theorem writesOnly_setReg_advance (r : Reg) (v : Word) (a : Arg) (s : State) :
    writesOnly r v a s ((s.setReg r v).advance a) := by
  rw [State.advance_setReg]
  exact ⟨by simp, sameRegsBut_setReg (s.advance a) r v, by simp, by simp, by simp⟩

/-- Of the rule of an instruction that writes the selected register only the value is its own. -/
theorem registerRule_ofOp {o : Op} {f : Word → Word → Word}
    (h : ∀ r a s op, resolve a s = .ok op →
      exec (Instr.ofOp o r a) s = .next ((s.setReg r (f (s.reg r) op)).advance a)) :
    registerRule (Instr.ofOp o) o.code f :=
  ⟨encodedAs_ofOp o, raisesResolution_ofOp o,
    fun r a s op hr => ⟨_, h r a s op hr, writesOnly_setReg_advance r _ a s⟩⟩

/-- Settles O33: the resolved operand is the value written. -/
theorem loadWritesOperand : Obligations.LoadWritesOperand :=
  registerRule_ofOp (o := .load) fun _ _ _ _ => exec_load_ok

/-! ### The modes of store (42_data_transfer R110) -/

/-- Settles O34: in direct mode the write of the word completes, and `memWrite2_get` gives every byte after it. -/
theorem storeInEachMode : Obligations.StoreInEachMode := by
  refine ⟨encodedAs_ofOp .store, raisesResolution_ofOp .store, fun r s => ?acc, fun _ v _ => exec_store_imm v,
    fun r ea s hw hb => ?dir⟩
  case acc => exact ⟨_, exec_store_acc, writesOnly_setReg_advance .r0 (s.reg r) .acc s⟩
  case dir =>
    have hm := memWrite2_ok (s.reg r) hb
    refine ⟨_, exec_store_dir_ok hm, fun r' => by simp, rfl, rfl, memWrite2_size hm, ?_, ?_,
      fun k => memWrite2_get_other hw hm⟩
    · exact (congrArg BitVec.toNat (memWrite2_get_first hw hm)).trans (hiByte_toNat _)
    · exact (congrArg BitVec.toNat (memWrite2_get_second hw hm)).trans (loByte_toNat _)

/-! ### The frame of store, also over a memory that is not canonical (20_memory R41) -/

/-- Inserting a byte hides or uncovers cells of its own address only, whatever the order of the cells. -/
theorem Memory.lookup_insert_ne {a k : Nat} (h : k ≠ a) (b : Byte) (cs : List Host.Cell) :
    Memory.lookup (Memory.insert a b cs) k = Memory.lookup cs k := by
  have hcons (ds : List Host.Cell) : Memory.lookup ((a, b) :: ds) k = Memory.lookup ds k := if_neg h.symm
  induction cs with
  | nil =>
    rw [Memory.insert]
    split
    · rfl
    · exact hcons []
  | cons cell cs ih =>
    obtain ⟨j, c⟩ := cell
    rw [Memory.insert]
    split_ifs with hlt hb hj hb
    · rfl
    · exact hcons _
    · exact (if_neg (hj ▸ h.symm)).symm
    · subst hj
      exact (hcons cs).trans (if_neg h.symm).symm
    · rw [Memory.lookup, Memory.lookup, ih]

theorem Memory.get_set_ne {a k : Nat} (h : k ≠ a) (m : Memory) (b : Byte) : (m.set a b).get k = m.get k :=
  Memory.lookup_insert_ne h b m.cells

/-- A 2-byte write leaves every byte but its own two, also of a memory that is not canonical. -/
theorem memWrite2_frame {m m' : Memory} {a : Nat} {v : Word} (h : memWrite2 m a v = .ok m') {k : Nat} (hk : k ≠ a)
    (hk' : k ≠ a + 1) : m'.get k = m.get k := by
  cases (memWrite2_ok v (memWrite2_inRange h)).symm.trans h
  rw [Memory.get_set_ne hk', Memory.get_set_ne hk]

/-- A direct store commits its write and moves pc past itself, or raises a fault. -/
theorem exec_store_dir_next {r : Reg} {ea : Word} {s t : State} (h : exec (.store r (.dir ea)) s = .next t) :
    (∃ m, memWrite2 s.mem ea.toNat (s.reg r) = .ok m ∧ t = (s.setMem m).advance (.dir ea)) ∨ ∃ c, t = s.raise c := by
  by_cases hb : ea.toNat + 2 ≤ s.mem.size
  · have hm := memWrite2_ok (s.reg r) hb
    cases (exec_store_dir_ok hm).symm.trans h
    exact .inl ⟨_, hm, rfl⟩
  · cases (exec_ofOp_error .store (resolve_dir_error (by omega))).symm.trans h
    exact .inr ⟨_, rfl⟩

/-- Settles O49: a store wrote R0, or raised a fault, or wrote one word, by its mode. -/
theorem storeFrame : Obligations.StoreFrame := by
  refine fun r s t => ⟨fun h => ?acc, fun v h => ?imm, fun ea h => ?dir⟩
  case acc =>
    cases exec_store_acc.symm.trans h
    obtain ⟨-, hregs, -, hmem, hstatus⟩ := writesOnly_setReg_advance .r0 (s.reg r) .acc s
    exact ⟨hregs, sameMem_of_eq hmem, .inl hstatus⟩
  case imm =>
    cases (exec_store_imm v).symm.trans h
    exact ⟨fun r' => State.raise_reg s r' _, sameMem_of_eq rfl, rfl⟩
  case dir =>
    rcases exec_store_dir_next h with ⟨m, hm, rfl⟩ | ⟨c, rfl⟩
    · exact ⟨fun r' => by simp, .inl rfl, memWrite2_size hm, fun _ => memWrite2_frame hm⟩
    · exact ⟨fun r' => State.raise_reg s r' c, .inr ⟨c, rfl⟩, rfl, fun _ _ _ => rfl⟩

end Sys2Proof.Machine
end

section
/-! PROOFS of the family 43_arithmetic: what add, sub, mul and div write, that the first three give the same 16 bits
under the signed reading, and the four results with R0 as both operands. -/

namespace Sys2Proof.Machine

/-! ### The low 16 bits of an exact result (43_arithmetic R111, R116) -/

theorem toNat_narrow (z : Int) : ((narrow z).toNat : Int) = z % 65536 := by
  rw [narrow, BitVec.toNat_ofInt]
  exact Int.toNat_of_nonneg (Int.emod_nonneg z (by decide))

theorem narrow_eq_ofNat (z : Int) : narrow z = BitVec.ofNat 16 (z % 65536).toNat := by
  have hnat := toNat_narrow z
  exact BitVec.eq_of_toNat_eq (by rw [BitVec.toNat_ofNat]; omega)

theorem narrow_natCast (n : Nat) : narrow n = BitVec.ofNat 16 (n % 65536) := narrow_eq_ofNat n

/-- Reading a word with a sign changes its value by a multiple of 65536 (00_scope R14). -/
theorem signedReading_modEq (v : Word) : signedReading v ≡ v.toNat [ZMOD 65536] :=
  (Int.modEq_sub_modulus_mul_iff.mpr .rfl).symm

/-- Whatever reading the operands have, the signed reading of a narrowed result is the exact one mod 65536. -/
theorem signedReading_narrow (z : Int) : signedReading (narrow z) ≡ z [ZMOD 65536] :=
  (signedReading_modEq _).trans (toNat_narrow z ▸ Int.mod_modEq z 65536)

/-! ### The four instructions (43_arithmetic R112 to R115) -/

section Answers
variable {r : Reg} {a : Arg} {s : State} {op : Word}

theorem exec_add_ok (h : resolve a s = .ok op) :
    exec (.add r a) s = .next ((s.setReg r (narrow ((s.reg r).toNat + op.toNat))).advance a) :=
  (exec_add r a s).trans (writeSelected_ok h)

theorem exec_sub_ok (h : resolve a s = .ok op) :
    exec (.sub r a) s = .next ((s.setReg r (narrow ((s.reg r).toNat - op.toNat))).advance a) :=
  (exec_sub r a s).trans (writeSelected_ok h)

theorem exec_mul_ok (h : resolve a s = .ok op) :
    exec (.mul r a) s = .next ((s.setReg r (narrow ((s.reg r).toNat * op.toNat))).advance a) :=
  (exec_mul r a s).trans (writeSelected_ok h)

end Answers

/-- Settles O35: the exact sum is a natural number, narrowed. -/
theorem addWraps : Obligations.AddWraps :=
  registerRule_ofOp (o := .add) fun _ _ _ _ hr => by
    rw [← narrow_natCast, Int.natCast_add]; exact exec_add_ok hr

/-- Settles O36: the exact difference may be negative, and its residue is not. -/
theorem subWraps : Obligations.SubWraps :=
  registerRule_ofOp (o := .sub) fun _ _ _ _ hr => by
    rw [← narrow_eq_ofNat]; exact exec_sub_ok hr

/-- Settles O37: the exact product is a natural number, narrowed. -/
theorem mulKeepsLowHalf : Obligations.MulKeepsLowHalf :=
  registerRule_ofOp (o := .mul) fun _ _ _ _ hr => by
    rw [← narrow_natCast, Int.natCast_mul]; exact exec_mul_ok hr

/-- Settles O38: the quotient is no larger than the word divided, so its 16 bits are all of it. -/
theorem divFloorsOrFaults : Obligations.DivFloorsOrFaults := by
  refine ⟨encodedAs_ofOp .div, raisesResolution_ofOp .div, fun r a s op hr hop => ?_, fun r a s => exec_div_zero⟩
  have hfits : (s.reg r).toNat / op.toNat < 2 ^ 16 := (Nat.div_le_self _ _).trans_lt (s.reg r).isLt
  obtain ⟨hval, hframe⟩ := writesOnly_setReg_advance r (BitVec.ofNat 16 ((s.reg r).toNat / op.toNat)) a s
  exact ⟨_, exec_div_ok hr hop, by rw [hval, BitVec.toNat_ofNat, Nat.mod_eq_of_lt hfits], hframe⟩

/-! ### The signed reading and R0 with itself (43_arithmetic R116, R118) -/

/-- Settles O45: the exact results of the two readings are congruent, since the operands are. -/
theorem signedArithmeticAgrees : Obligations.SignedArithmeticAgrees := by
  intro r a s op hr
  refine ⟨_, _, _, exec_add_ok hr, exec_sub_ok hr, exec_mul_ok hr, ?_⟩
  simp only [State.advance_reg, State.setReg_reg_same]
  have hsel := (signedReading_modEq (s.reg r)).symm
  have hop := (signedReading_modEq op).symm
  exact ⟨((signedReading_narrow _).trans (hsel.add hop)).symm.dvd,
    ((signedReading_narrow _).trans (hsel.sub hop)).symm.dvd,
    ((signedReading_narrow _).trans (hsel.mul hop)).symm.dvd⟩

/-- Settles O46: the rules of the four instructions, where the operand resolves to R0 itself. -/
theorem accumulatorWithItself : Obligations.AccumulatorWithItself := by
  intro s
  have hr : resolve .acc s = .ok s.r0 := rfl
  obtain ⟨-, -, hadd⟩ := addWraps
  obtain ⟨-, -, hsub⟩ := subWraps
  obtain ⟨-, -, hmul⟩ := mulKeepsLowHalf
  obtain ⟨-, -, hdiv, hzero⟩ := divFloorsOrFaults
  refine ⟨?add, ?sub, ?mul, fun hne => ?div, fun h0 => hzero .r0 .acc s (h0 ▸ hr)⟩
  case add =>
    obtain ⟨t, ht, hval, -⟩ := hadd .r0 .acc s s.r0 hr
    exact ⟨t, ht, (congrArg BitVec.toNat hval).trans (by simp [State.reg, Nat.two_mul])⟩
  case sub =>
    obtain ⟨t, ht, hval, -⟩ := hsub .r0 .acc s s.r0 hr
    exact ⟨t, ht, hval.trans (by simp [State.reg])⟩
  case mul =>
    obtain ⟨t, ht, hval, -⟩ := hmul .r0 .acc s s.r0 hr
    exact ⟨t, ht, (congrArg BitVec.toNat hval).trans (by simp [State.reg])⟩
  case div =>
    obtain ⟨t, ht, hval, -⟩ := hdiv .r0 .acc s s.r0 hr hne
    have hpos : 0 < s.r0.toNat := Nat.pos_of_ne_zero fun h => hne (BitVec.eq_of_toNat_eq h)
    exact ⟨t, ht, BitVec.eq_of_toNat_eq (hval.trans (Nat.div_self hpos))⟩

end Sys2Proof.Machine
end

section
/-! PROOFS of the family 44_logic_compare: the value that and, or, not, equalsZero and lessThanZero write, as a test on
the numbers the register and the operand hold, and the sign bit as the test for a negative signed reading. -/

namespace Sys2Proof.Machine

/-! ### The tests and the value written (44_logic_compare R119) -/

theorem sense_iff_toNat (v : Word) : sense v = true ↔ v.toNat = 1 :=
  beq_iff_eq.trans BitVec.toNat_inj.symm

theorem boolWord_of_iff {t : Bool} {p : Prop} [Decidable p] (h : t = true ↔ p) :
    boolWord t = if p then 1#16 else 0#16 :=
  if_congr h rfl rfl

theorem boolWord_not_of_iff {t : Bool} {p : Prop} [Decidable p] (h : t = true ↔ p) :
    boolWord (!t) = if p then 0#16 else 1#16 := by
  rw [← if_congr h rfl rfl]
  cases t <;> rfl

/-- An operation of the shape writeSelected has the rule of any value equal to the one it writes. -/
theorem registerRule_of_writeSelected {o : Op} {f g : Word → Word → Word}
    (hexec : ∀ r a s, exec (Instr.ofOp o r a) s = writeSelected g r a s) (hval : ∀ sel op, g sel op = f sel op) :
    registerRule (Instr.ofOp o) o.code f :=
  registerRule_ofOp fun r a s op hr => by rw [hexec, writeSelected_ok hr, hval]

/-! ### The sign bit (00_scope R14, 44_logic_compare R124) -/

theorem getLsbD_last_iff_le_toNat (v : Word) : v.getLsbD 15 = true ↔ 32768 ≤ v.toNat := by
  rw [← BitVec.msb_eq_getLsbD_last (x := v), BitVec.msb_eq_decide, decide_eq_true_iff]

/-- A word is below 65536, so the signed reading is negative exactly when the sign bit takes 65536 off. -/
theorem getLsbD_last_iff_signedReading_neg (v : Word) : v.getLsbD 15 = true ↔ signedReading v < 0 := by
  have hv := v.isLt
  rw [signedReading]
  split_ifs with hbit
  · exact iff_of_true hbit (by omega)
  · exact iff_of_false hbit (by omega)

/-! ### The five instructions (44_logic_compare R120 to R124) -/

/-- Settles O43: the value written is the sign bit, and the two other readings of that bit are facts about words. -/
theorem lessThanZeroTestsSignBit : Obligations.LessThanZeroTestsSignBit :=
  ⟨registerRule_of_writeSelected (o := .lessThanZero) exec_lessThanZero fun _ _ => boolWord_of_iff .rfl,
    fun op => ⟨getLsbD_last_iff_le_toNat op, getLsbD_last_iff_signedReading_neg op⟩⟩

/-- Settles O39: both values are sensed. -/
theorem andOfSenses : Obligations.AndOfSenses :=
  registerRule_of_writeSelected (o := .and) exec_and fun sel op =>
    boolWord_of_iff (Bool.and_eq_true_iff.trans (and_congr (sense_iff_toNat sel) (sense_iff_toNat op)))

/-- Settles O40: either value is sensed. -/
theorem orOfSenses : Obligations.OrOfSenses :=
  registerRule_of_writeSelected (o := .or) exec_or fun sel op =>
    boolWord_of_iff (Bool.or_eq_true_iff.trans (or_congr (sense_iff_toNat sel) (sense_iff_toNat op)))

/-- Settles O41: only the register is sensed; the operand is not in the value. -/
theorem notOfSense : Obligations.NotOfSense :=
  registerRule_of_writeSelected (o := .not) exec_not fun sel _ => boolWord_not_of_iff (sense_iff_toNat sel)

/-- Settles O42: only the operand is tested; the old value of the register is not in the value. -/
theorem equalsZeroTestsOperand : Obligations.EqualsZeroTestsOperand :=
  registerRule_of_writeSelected (o := .equalsZero) exec_equalsZero fun _ op => boolWord_of_iff (isZero_iff_toNat op)

end Sys2Proof.Machine
end

section
/-! PROOFS of the family 60_exceptions: every step answers a next state, the record of a fault is justified by the state
that raised it, the three accesses that raise BoundsError, and the frame of the reserved patterns. -/

namespace Sys2Proof.Machine

/-- Settles O9: the next state is the one the host's driver goes on from. -/
theorem everyStepAnswersNextState : Obligations.EveryStepAnswersNextState :=
  fun s => ⟨stepState s, step_eq_next_stepState s⟩

/-- Settles O50: each of the three forms raises DecodeError of some byte, and raising changes the status alone. -/
theorem reservedFrame : Obligations.ReservedFrame := by
  intro s t i hi h
  suffices hraise : ∃ b, exec i s = .next (s.raise (.decode b)) by
    obtain ⟨b, hb⟩ := hraise
    cases hb.symm.trans h
    exact ⟨fun r => State.raise_reg s r _, sameMem_of_eq rfl, rfl, b, rfl⟩
  rcases hi with ⟨x, m, rfl⟩ | ⟨o, m, rfl⟩ | ⟨o, r, rfl⟩ <;> exact ⟨_, rfl⟩

/-! ### What justifies the record of each cause (60_exceptions R126 to R130) -/

section Justified
variable (s : State)

theorem faultJustified_decode (b : Byte) : faultJustified s ((Cause.decode b).record s.pc) = true ↔
    s.pc < s.mem.size ∧ s.mem.get s.pc = b ∧ illegalFirstByte b = true := by
  simp [faultJustified, Cause.record, Cause.kind, Cause.info, and_assoc]

theorem isAccessOfStep_iff (a n : Nat) : isAccessOfStep s a n = true ↔
    (a = s.pc ∧ n = 1)
    ∨ (illegalFirstByte (s.mem.get s.pc) = false ∧ n = 2 ∧
        ((modeField (s.mem.get s.pc) ≠ 0b00#2 ∧ a = s.pc + 1)
        ∨ (modeField (s.mem.get s.pc) = 0b10#2 ∧ a = (s.mem.word (s.pc + 1)).toNat))) := by
  simp only [isAccessOfStep, Bool.or_eq_true, Bool.and_eq_true, decide_eq_true_eq, Bool.not_eq_true', bne_iff_ne,
    beq_iff_eq]
  tauto

theorem faultJustified_bounds (a n : Nat) : faultJustified s ((Cause.bounds a n).record s.pc) = true ↔
    s.mem.size < a + n ∧ isAccessOfStep s a n = true := by
  simp [faultJustified, Cause.record, Cause.kind, Cause.info]

theorem faultJustified_encoding : faultJustified s (Cause.encoding.record s.pc) = true ↔
    s.pc < s.mem.size ∧ opcField (s.mem.get s.pc) = Op.store.code ∧ modeField (s.mem.get s.pc) = 0b01#2 := by
  simp [faultJustified, Cause.record, Cause.kind, Cause.info, and_assoc]

theorem faultJustified_divideByZero : faultJustified s (Cause.divideByZero.record s.pc) = true ↔
    s.pc < s.mem.size ∧ opcField (s.mem.get s.pc) = Op.div.code := by
  simp [faultJustified, Cause.record, Cause.kind, Cause.info]

end Justified

/-- A step that raises a fault does so by the first check that fails (60_exceptions R133), and that check is what the
record is justified by. -/
theorem faultJustified_of_step_raises {s : State} {c : Cause} (hs : s.status = .running)
    (h : step s = .next (s.raise c)) : faultJustified s (c.record s.pc) = true := by
  have hrecord : ∀ c', step s = .next (s.raise c') → faultJustified s (c'.record s.pc) = true →
      faultJustified s (c.record s.pc) = true := fun c' h' hj => by
    have hstatus := congrArg State.status (Host.Outcome.next.inj (h.symm.trans h'))
    rw [State.raise_status, State.raise_status] at hstatus
    rwa [Status.faulted.inj hstatus]
  have horder := firstFaultInOrder s hs
  extract_lets b w op at horder
  split_ifs at horder with hpc hb hpay hdir hstore hdiv
  · exact hrecord _ horder ((faultJustified_bounds ..).mpr ⟨hpc, (isAccessOfStep_iff ..).mpr (.inl ⟨rfl, rfl⟩)⟩)
  · exact hrecord _ horder ((faultJustified_decode ..).mpr ⟨by omega, rfl, hb⟩)
  · obtain ⟨hmode, hlt⟩ := hpay
    exact hrecord _ horder ((faultJustified_bounds ..).mpr ⟨hlt, (isAccessOfStep_iff ..).mpr
      (.inr ⟨Bool.eq_false_iff.mpr hb, rfl, .inl ⟨hmode, rfl⟩⟩)⟩)
  · obtain ⟨hmode, hlt⟩ := hdir
    exact hrecord _ horder ((faultJustified_bounds ..).mpr ⟨hlt, (isAccessOfStep_iff ..).mpr
      (.inr ⟨Bool.eq_false_iff.mpr hb, rfl, .inr ⟨hmode, rfl⟩⟩)⟩)
  · exact hrecord _ horder ((faultJustified_encoding s).mpr ⟨by omega, hstore⟩)
  · obtain ⟨hopc, -⟩ := hdiv
    exact hrecord _ horder ((faultJustified_divideByZero s).mpr ⟨by omega, hopc⟩)
  · obtain ⟨t, ht, hst⟩ := horder
    cases h.symm.trans ht
    simp at hst

/-! ### The invariant -/

/-- A step keeps memory in its canonical form: the one change it can make to memory is a 2-byte write. -/
theorem step_mem_wf {s t : State} (hw : s.mem.wf = true) (h : step s = .next t) : t.mem.wf = true := by
  rcases step_mem h with hm | ⟨r, ea, -, -, hm⟩
  · rwa [hm]
  · exact (memWrite2_wf hw hm).1

theorem State.inv_iff (s : State) : s.inv = true ↔
    s.mem.wf = true ∧ ∀ f, s.status = .faulted f → faultJustified s f = true := by
  cases hs : s.status <;> simp [State.inv, hs]

/-- Settles O18: a stopped machine stays as it is; from Running memory stays canonical, and a fault leaves the pc and
the memory that justify its record. -/
theorem stepKeepsInvariant : Obligations.StepKeepsInvariant := by
  intro s t hinv h
  by_cases hs : s.status = .running
  · refine t.inv_iff.mpr ⟨step_mem_wf (s.inv_iff.mp hinv).1 h, fun f ht => ?_⟩
    obtain ⟨c, rfl⟩ := exists_raise_of_step_faulted hs h ht
    cases ht
    have hrecord : faultJustified s (c.record s.pc) = true := faultJustified_of_step_raises hs h
    exact hrecord
  · cases (step_stopped hs).symm.trans h
    exact hinv

/-! ### The accesses that raise BoundsError (60_exceptions R128) -/

theorem memRead2_inRange {m : Memory} {a : Nat} {v : Word} (h : memRead2 m a = .ok v) : a + 2 ≤ m.size := by
  by_contra hb
  rw [memRead2_error (by omega)] at h
  cases h

/-- Settles O12: the checks before each access pass, so the step raises it; and a BoundsError raised is justified by one
of the three. -/
theorem boundsErrorExactlyThreeAccesses : Obligations.BoundsErrorExactlyThreeAccesses := by
  refine ⟨?accesses, fun m ea op v h => ⟨_, memWrite2_ok v (memRead2_inRange h)⟩⟩
  intro s hs b w
  have horder := firstFaultInOrder s hs
  dsimp only at horder
  refine ⟨fun hpc => ?fetch, fun hpc hb hmode hlt => ?payload, fun hpc hb hmode hlt => ?direct, fun a n h => ?only⟩
  case fetch => rwa [if_pos hpc] at horder
  case payload =>
    rwa [if_neg (by omega), if_neg (Bool.eq_false_iff.mp hb), if_pos ⟨hmode, hlt⟩] at horder
  case direct =>
    rwa [if_neg (by omega), if_neg (Bool.eq_false_iff.mp hb), if_neg (by omega), if_pos ⟨hmode, hlt⟩] at horder
  case only =>
    obtain ⟨hlt, haccess⟩ := (faultJustified_bounds s a n).mp (faultJustified_of_step_raises hs h)
    rcases (isAccessOfStep_iff s a n).mp haccess with ⟨rfl, rfl⟩ | ⟨-, rfl, ⟨hmode, rfl⟩ | ⟨hmode, rfl⟩⟩
    · exact .inl ⟨rfl, rfl, hlt⟩
    · exact .inr (.inl ⟨rfl, rfl, hmode, hlt⟩)
    · exact .inr (.inr ⟨rfl, rfl, hmode, hlt⟩)

end Sys2Proof.Machine
end

section
/-! PROOFS of the family 70_reset_and_hazards: the bytes placed at pc are the bytes the next step fetches, and
construction sets every piece of state. -/

namespace Sys2Proof.Machine

/-! ### The bytes of a placed list (70_reset R145, log 6) -/

/-- Placing writes upwards only: the bytes before its address stay. -/
theorem Memory.place_get_before {a k : Nat} (h : k < a) (m : Memory) (bs : List Byte) :
    (m.place a bs).get k = m.get k := by
  induction bs generalizing m a with
  | nil => rfl
  | cons b bs ih => rw [Memory.place, ih (by omega), Memory.get_set_ne (by omega)]

theorem Memory.place_get {m : Memory} {a : Nat} {bs : List Byte} (hw : m.wf = true) (hsize : a + bs.length ≤ m.size)
    {k : Nat} (hk : k < bs.length) : (m.place a bs).get (a + k) = bs.getD k 0#8 := by
  induction bs generalizing m a k with
  | nil => cases hk
  | cons b bs ih =>
    rw [List.length_cons] at hsize hk
    rw [Memory.place]
    cases k with
    | zero => rw [Memory.place_get_before (by omega), Memory.get_set hw, if_pos (Nat.add_zero a), List.getD_cons_zero]
    | succ k =>
      rw [List.getD_cons_succ, show a + (k + 1) = a + 1 + k by omega]
      exact ih (Memory.set_wf hw (by omega) b) (by rw [Memory.set_size]; omega) (by omega)

/-! ### The state with bytes placed at pc -/

section PlaceAtPc
variable {s : State} (bs : List Byte)

theorem State.placeAtPc_pc : (s.placeAtPc bs).pc = s.pc := rfl

theorem State.placeAtPc_status : (s.placeAtPc bs).status = .running := rfl

/-- The memory the bytes are placed in is made long enough first, so the placing stays inside it. -/
theorem State.placeAtPc_size (hw : s.mem.wf = true) :
    (s.placeAtPc bs).mem.size = max s.mem.size (s.pc + bs.length) :=
  (Memory.place_wf (Memory.grow_wf hw (Nat.le_max_left ..)) (Nat.le_max_right ..)).2

theorem State.placeAtPc_get (hw : s.mem.wf = true) {k : Nat} (hk : k < bs.length) :
    (s.placeAtPc bs).mem.get (s.pc + k) = bs.getD k 0#8 :=
  Memory.place_get (Memory.grow_wf hw (Nat.le_max_left ..)) (Nat.le_max_right ..) hk

end PlaceAtPc

/-- Settles O7: the placed encoding stands at pc, inside memory, and the status is Running. -/
theorem placedInstructionRuns : Obligations.PlacedInstructionRuns := by
  intro s i hw hi
  refine stepRunsEncodedBytesInMemory _ i (State.placeAtPc_status _) hi ?_ fun k => State.placeAtPc_get _ hw
  rw [State.placeAtPc_size _ hw, State.placeAtPc_pc]
  exact Nat.le_max_right ..

/-! ### Construction (70_reset R143) -/

theorem State.launch_inv (memInit : List Byte) (a b c : Word) : (State.launch memInit a b c).inv = true :=
  (State.inv_iff _).mpr ⟨Memory.ofBytes_wf memInit, nofun⟩

/-- Settles O20: each piece of state but memory is a literal field of the construction, and memory is that of the
bytes, whose length and bytes are known by `Memory.ofBytes_size` and `Memory.ofBytes_get`. -/
theorem constructionSetsState : Obligations.ConstructionSetsState := by
  intro memInit a b c s
  refine ⟨rfl, rfl, rfl, rfl, rfl, Memory.ofBytes_size memInit, fun k hk => ?_, State.launch_inv memInit a b c⟩
  exact (Memory.ofBytes_get memInit k).trans (List.getD_eq_getElem _ _ hk)

end Sys2Proof.Machine
end

section
/-! PROOFS of the family other: the resolution pass succeeds just when no label name is defined twice, and its table then
gives each label the address of its instruction. -/

namespace Sys2Proof.Machine

section LabelTables
variable {name : LabelName} {t t' : LabelTable} {addr x : Nat}

/-! ### What a table holds (30_encoding R80): the converses of `lookup_addLabels` and `lookup_resolveLabels` -/

/-- No entry is overwritten: a name in the table already is refused. -/
theorem lookup_of_addLabels {ns : List LabelName} (h : addLabels addr ns t = .ok t')
    (hx : (name ∈ ns ∧ x = addr) ∨ t.lookup name = some x) : t'.lookup name = some x := by
  induction ns generalizing t with
  | nil =>
    cases h
    exact hx.resolve_left fun hmem => List.not_mem_nil hmem.1
  | cons n ns ih =>
    simp only [addLabels] at h
    split at h
    · cases h
    · next hnone =>
      refine ih h ?_
      by_cases hn : name = n
      · subst hn
        rcases hx with ⟨-, rfl⟩ | hlook
        · exact .inr List.lookup_cons_self
        · rw [hnone] at hlook
          cases hlook
      · rw [List.lookup_cons, beq_eq_false_iff_ne.mpr hn]
        exact hx.imp_left fun hmem => ⟨List.mem_of_ne_of_mem hn hmem.1, hmem.2⟩

theorem lookup_of_resolveLabels {items : List Item} (h : resolveLabels addr items t = .ok t')
    (hx : (∃ before it after, items = before ++ it :: after ∧ name ∈ it.labels ∧ x = addr + addressAfter before) ∨
      t.lookup name = some x) : t'.lookup name = some x := by
  induction items generalizing addr t with
  | nil =>
    cases h
    rcases hx with ⟨before, it, after, hitems, -⟩ | hlook
    · exact absurd hitems (by simp)
    · exact hlook
  | cons first items ih =>
    simp only [resolveLabels] at h
    split at h
    · next t₁ hadd =>
      refine ih h ?_
      rcases hx with ⟨_ | ⟨_, before⟩, it, after, hitems, hmem, rfl⟩ | hlook
      · cases hitems
        exact .inr (lookup_of_addLabels hadd (.inl ⟨hmem, rfl⟩))
      · cases hitems
        exact .inl ⟨before, it, after, rfl, hmem, by rw [addressAfter_cons, Nat.add_assoc]⟩
      · exact .inr (lookup_of_addLabels hadd (.inr hlook))
    · cases h

/-! ### When the pass succeeds (30_encoding R80)

The names still to come and the names in the table, together, decide it: the pass only moves names from the one list to
the other, so a repetition among them stays one until it is met. -/

theorem lookup_eq_none_iff_notMem_names : t.lookup name = none ↔ name ∉ t.map Prod.fst := by
  simp only [List.lookup_eq_none_iff, bne_iff_ne, List.mem_map, not_exists, not_and]
  exact forall₂_congr fun _ _ => ne_comm

theorem addLabels_cases (addr : Nat) (ns : List LabelName) (hn : (t.map Prod.fst).Nodup) :
    (∃ t', addLabels addr ns t = .ok t' ∧ (t'.map Prod.fst).Nodup ∧ (t'.map Prod.fst).Perm (ns ++ t.map Prod.fst)) ∨
      ∃ name, addLabels addr ns t = .error (.labelResolution name) ∧ ¬ (ns ++ t.map Prod.fst).Nodup := by
  induction ns generalizing t with
  | nil => exact .inl ⟨t, rfl, hn, .refl _⟩
  | cons n ns ih =>
    simp only [addLabels]
    cases hlook : t.lookup n with
    | some x =>
      have hmem : n ∈ t.map Prod.fst := by_contra fun hnot =>
        Option.some_ne_none x (hlook.symm.trans (lookup_eq_none_iff_notMem_names.mpr hnot))
      exact .inr ⟨n, rfl, fun hnd => (List.nodup_cons.mp hnd).1 (List.mem_append_right ns hmem)⟩
    | none =>
      have hnot := lookup_eq_none_iff_notMem_names.mp hlook
      refine (ih (t := (n, addr) :: t) (List.nodup_cons.mpr ⟨hnot, hn⟩)).imp ?_ ?_
      · exact fun ⟨t', hok, hn', hperm⟩ => ⟨t', hok, hn', hperm.trans List.perm_middle⟩
      · exact fun ⟨name, herr, hdup⟩ => ⟨name, herr, fun hnd => hdup (List.perm_middle.nodup_iff.mpr hnd)⟩

theorem resolveLabels_cases (addr : Nat) (items : List Item) (hn : (t.map Prod.fst).Nodup) :
    (∃ t', resolveLabels addr items t = .ok t' ∧ ((items.flatMap fun it => it.labels) ++ t.map Prod.fst).Nodup) ∨
      ∃ name, resolveLabels addr items t = .error (.labelResolution name) ∧
        ¬ ((items.flatMap fun it => it.labels) ++ t.map Prod.fst).Nodup := by
  induction items generalizing addr t with
  | nil => exact .inl ⟨t, rfl, hn⟩
  | cons it items ih =>
    simp only [resolveLabels, List.flatMap_cons, List.append_assoc]
    rcases addLabels_cases addr it.labels hn with ⟨t₁, hok, hn₁, hperm⟩ | ⟨name, herr, hdup⟩
    · have hmoved : ((items.flatMap fun it => it.labels) ++ t₁.map Prod.fst).Perm
          (it.labels ++ ((items.flatMap fun it => it.labels) ++ t.map Prod.fst)) :=
        (hperm.append_left _).trans (List.perm_append_comm_assoc ..)
      rw [hok, ← hmoved.nodup_iff]
      exact ih _ hn₁
    · rw [herr]
      exact .inr ⟨name, rfl, fun hnd => hdup (hnd.sublist ((List.sublist_append_right ..).append_left _))⟩

end LabelTables

/-- Settles O55: the resolution pass decides by repetition among the names, and its error is the program's, since it is
the first pass. -/
theorem labelTableRule : Obligations.LabelTableRule := by
  intro items
  have hcases := resolveLabels_cases 0 items (t := []) List.nodup_nil
  rw [List.map_nil, List.append_nil] at hcases
  rcases hcases with ⟨t, hok, hnodup⟩ | ⟨name, herr, hdup⟩
  · refine ⟨fun hdup => absurd hnodup hdup, fun _ => ⟨t, hok, fun before it after hitems name hmem => ?_⟩⟩
    exact lookup_of_resolveLabels hok (.inl ⟨before, it, after, hitems, hmem, (Nat.zero_add _).symm⟩)
  · exact ⟨fun _ => ⟨name, by simp only [assembleItems, herr]⟩, fun hnodup => absurd hnodup hdup⟩

end Sys2Proof.Machine
end
